-- ==== Sys2Proof/Word.lean ====
section
/-! DEFINITION. The words of CANMP (00_scope.md R7, R9, R13): the 160-bit request word, the payload byte, and a text as
a finite sequence of 8-bit characters. All values are unsigned (R10). -/

namespace Sys2Proof

/-- One byte of the payload buffer, and one 8-bit character of a text (R13, R41). -/
abbrev Byte := BitVec 8

/-- The request word REQ, 160 bits, bit 0 least significant (R60). -/
abbrev ReqWord := BitVec 160

/-- A text: its characters, position 0 (leftmost) first; its length is carried by the list (R13). -/
abbrev Text := List Byte

end Sys2Proof
end

