-- ==== Sys2Proof/Syntax.lean ====
section
/-! DEFINITION. The ten operations of CANMP (30_encoding.md R76), one constructor per row of spec/opcode_table.json,
with the operands of its request format (R61 to R70). Every operand is an unsigned field of exactly the width the
format gives it (R73), so the field's type is its only well-formedness condition. -/

namespace Sys2Proof

/-- One operation with its operands. The payload of the three frame operations is not an operand: it is the buffer PBUF
that accompanies the request (R74). -/
inductive Instr where
  /-- HDEC, format H (R61): decode a channel handle (R100). -/
  | hdec (handle : BitVec 16)
  /-- HENC, format HE (R62): compose a channel handle (R102). -/
  | henc (wide : Bool) (devtype : BitVec 16) (chan : BitVec 8)
  /-- HFMT, format HF (R63): render a channel handle as text (R104). -/
  | hfmt (handle : BitVec 16) (isfd : Bool)
  /-- MCLS, format T (R64): classify message type flags (R121). -/
  | mcls (flags : BitVec 8)
  /-- DLCL, format D (R65): payload length of a data length code (R140). -/
  | dlcl (dlc : BitVec 4)
  /-- TSCMB, format S (R66): combine a raw timestamp (R152). -/
  | tscmb (micros millis overflow : BitVec 32)
  /-- TSFMT, format M (R67): microseconds as milliseconds with one decimal (R156). -/
  | tsfmt (ts : BitVec 64)
  /-- FRN, format FN (R68): render a decoded frame (R172). -/
  | frn (id : BitVec 32) (flags length : BitVec 8) (ts : BitVec 64) (bufn : BitVec 7)
  /-- FRC, format FC (R69): parse and render a classic-CAN record (R180). -/
  | frc (id : BitVec 32) (flags len : BitVec 8) (micros millis overflow : BitVec 32) (bufn : BitVec 7)
  /-- FRF, format FF (R70): parse and render a CAN-FD record (R182). -/
  | frf (id : BitVec 32) (flags : BitVec 8) (dlc : BitVec 4) (ts : BitVec 64) (bufn : BitVec 7)
  deriving DecidableEq, Repr

/-- The payload buffer count `bufn` of a frame request; the other seven operations have no buffer (R40). -/
def Instr.bufn? : Instr → Option Nat
  | .hdec _ => none
  | .henc _ _ _ => none
  | .hfmt _ _ => none
  | .mcls _ => none
  | .dlcl _ => none
  | .tscmb _ _ _ => none
  | .tsfmt _ => none
  | .frn _ _ _ _ bufn => some bufn.toNat
  | .frc _ _ _ _ _ _ bufn => some bufn.toNat
  | .frf _ _ _ _ bufn => some bufn.toNat

end Sys2Proof
end

