-- ==== Sys2Proof/Decode.lean ====
section
/-! DEFINITION. The decoder of the 160-bit request word (30_encoding.md R60 to R70, R76 to R78), total on every word
and rejecting a reserved operation code by name; after it the encoder, written from the same field tables. -/

namespace Sys2Proof

/-- Why a request word is no operation. -/
inductive DecodeError where
  /-- `REQ[3:0]` is 0x0 or 0xB to 0xF (R77). -/
  | opReserved (op : BitVec 4)
  deriving DecidableEq, Repr

/-- `REQ[lo + w - 1 : lo]`: the field of `w` bits whose lowest bit is `lo` (R9, R11). -/
def field (req : ReqWord) (lo w : Nat) : BitVec w := req.extractLsb' lo w

/-- `REQ[i]`, one bit (R9). -/
def bit (req : ReqWord) (i : Nat) : Bool := req.getLsbD i

/-- The operation code `op = REQ[3:0]` (R60). -/
def opOf (req : ReqWord) : BitVec 4 := field req 0 4

/-- The decoder: `op` alone selects the format (R76); a bit its format does not use is not looked at (R78); the six
reserved codes are rejected by name (R77). -/
def decode (req : ReqWord) : Except DecodeError Instr :=
  match (opOf req).toNat with
  | 0x1 => .ok (.hdec (field req 4 16))
  | 0x2 => .ok (.henc (bit req 4) (field req 5 16) (field req 21 8))
  | 0x3 => .ok (.hfmt (field req 4 16) (bit req 20))
  | 0x4 => .ok (.mcls (field req 4 8))
  | 0x5 => .ok (.dlcl (field req 4 4))
  | 0x6 => .ok (.tscmb (field req 4 32) (field req 36 32) (field req 68 32))
  | 0x7 => .ok (.tsfmt (field req 4 64))
  | 0x8 => .ok (.frn (field req 4 32) (field req 36 8) (field req 44 8) (field req 52 64) (field req 116 7))
  | 0x9 => .ok (.frc (field req 4 32) (field req 36 8) (field req 44 8) (field req 52 32) (field req 84 32)
      (field req 116 32) (field req 148 7))
  | 0xA => .ok (.frf (field req 4 32) (field req 36 8) (field req 44 4) (field req 52 64) (field req 116 7))
  | _ => .error (.opReserved (opOf req))

/-- The operation code of each operation (R76). -/
def opcode : Instr → BitVec 4
  | .hdec _ => 0x1
  | .henc _ _ _ => 0x2
  | .hfmt _ _ => 0x3
  | .mcls _ => 0x4
  | .dlcl _ => 0x5
  | .tscmb _ _ _ => 0x6
  | .tsfmt _ => 0x7
  | .frn _ _ _ _ _ => 0x8
  | .frc _ _ _ _ _ _ _ => 0x9
  | .frf _ _ _ _ _ => 0xA

/-- The request word with `v` in the bits from `lo` up and 0 elsewhere. -/
def place (lo : Nat) {w : Nat} (v : BitVec w) : ReqWord := v.setWidth 160 <<< lo

/-- The encoder: every field at its place in the format, every ignored bit 0 as an assembler writes it
(R61 to R70, R78). -/
def encode : Instr → ReqWord
  | .hdec handle => place 0 0x1#4 ||| place 4 handle
  | .henc wide devtype chan => place 0 0x2#4 ||| place 4 (BitVec.ofBool wide) ||| place 5 devtype ||| place 21 chan
  | .hfmt handle isfd => place 0 0x3#4 ||| place 4 handle ||| place 20 (BitVec.ofBool isfd)
  | .mcls flags => place 0 0x4#4 ||| place 4 flags
  | .dlcl dlc => place 0 0x5#4 ||| place 4 dlc
  | .tscmb micros millis overflow => place 0 0x6#4 ||| place 4 micros ||| place 36 millis ||| place 68 overflow
  | .tsfmt ts => place 0 0x7#4 ||| place 4 ts
  | .frn id flags length ts bufn =>
      place 0 0x8#4 ||| place 4 id ||| place 36 flags ||| place 44 length ||| place 52 ts ||| place 116 bufn
  | .frc id flags len micros millis overflow bufn =>
      place 0 0x9#4 ||| place 4 id ||| place 36 flags ||| place 44 len ||| place 52 micros ||| place 84 millis |||
        place 116 overflow ||| place 148 bufn
  | .frf id flags dlc ts bufn =>
      place 0 0xA#4 ||| place 4 id ||| place 36 flags ||| place 44 dlc ||| place 52 ts ||| place 116 bufn

/-- The highest bit of the request word that the format of operation code `op` uses (R61 to R70). -/
def highestUsedBit (op : BitVec 4) : Nat :=
  match op.toNat with
  | 0x1 => 19
  | 0x2 => 28
  | 0x3 => 20
  | 0x4 => 11
  | 0x5 => 7
  | 0x6 => 99
  | 0x7 => 67
  | 0x8 => 122
  | 0x9 => 154
  | 0xA => 122
  | _ => 3

/-- Bit `i` is a bit of the format that `op` selects: at most its highest used bit, and for FRF not one of the ignored
bits 51:48 (R61 to R70, R78). -/
def usesBit (op : BitVec 4) (i : Nat) : Bool :=
  i ≤ highestUsedBit op && !(op == 0xA#4 && 48 ≤ i && i ≤ 51)

/-- The decoder on the host's numbering of a table row's bits: bit 0 is bit 0 of REQ, and every bit above `nbits` is 0
(DEDUCED, log entry 10). -/
def decodeTableWord (nbits w : Nat) : Option Instr :=
  (decode (BitVec.ofNat 160 (w % 2 ^ nbits))).toOption

end Sys2Proof
end

