-- ==== Sys2Proof/Config.lean ====
section
/-! DEFINITION. What an instance of CANMP fixes (00_scope.md R7, 10_state.md R26, 70_reset_and_hazards.md R232) and the
free values. Nothing here changes while the block runs, so nothing here is state. -/

namespace Sys2Proof

/-- The two rounding rules of TSFMT (R7, R156). -/
inductive FmtRound where
  | halfUp
  | halfEven
  deriving DecidableEq, Repr, Inhabited

/-- The bit masks of the seven named flags of MessageTypeFlags (R7, R31). STANDARD is the all-zero word and has no
mask. -/
structure Masks where
  rtr      : BitVec 8
  extended : BitVec 8
  fd       : BitVec 8
  brs      : BitVec 8
  esi      : BitVec 8
  errframe : BitVec 8
  status   : BitVec 8
  deriving DecidableEq, Repr

namespace Masks

/-- The seven masks in the order of R7. -/
def toList (m : Masks) : List (BitVec 8) := [m.rtr, m.extended, m.fd, m.brs, m.esi, m.errframe, m.status]

/-- Exactly one of the eight bits is set. -/
def singleBit (b : BitVec 8) : Bool := (List.range 8).any fun k => b == 1#8 <<< k

/-- A mask layout for which the rules read as written (R8, 93_implementation_defined.md V12): seven distinct single
bits, RTR below EXTENDED, and FD, BRS, ESI above it. -/
def valid (m : Masks) : Bool :=
  m.toList.all singleBit && m.toList.Nodup &&
    m.rtr < m.extended && m.extended < m.fd && m.extended < m.brs && m.extended < m.esi

end Masks

/-- The parameters of an instance that its rules read: the mask layout and the rounding rule (R7, R232). An argument of
the step function `stepWith`, never state. -/
structure Params where
  masks    : Masks
  fmtRound : FmtRound
  deriving DecidableEq, Repr

namespace Config

/-- The layout of R7 and R31 (decision D5, from general knowledge; PRESUMED, log entry 6). -/
def masks : Masks where
  rtr      := 0x01
  extended := 0x02
  fd       := 0x04
  brs      := 0x08
  esi      := 0x10
  errframe := 0x40
  status   := 0x80

/-- `FMT_ROUND`, which the spec leaves OPEN (R159, D11): no body, so a claim holds for both values (a free value,
log entry 5). -/
opaque fmtRound : FmtRound

/-- The parameters of the instance that `step` runs (R232; DESIGN CHOICE, log entry 19). -/
def params : Params where
  masks    := masks
  fmtRound := fmtRound

/-- The byte a frame transaction reads at a buffer index below `bufn` that the host never supplied: "whatever the
buffer holds" (R235, V9). A free value, indexed by the transaction's serial number
and the byte index (DESIGN CHOICE, log entry 7). -/
opaque unsuppliedByte : Nat → Nat → Byte

/-- `WIDE_MIN`: the smallest handle that uses the 8-bit channel field (R7). -/
def wideMin : Nat := 0x100

/-- `LEN_MAX`: the largest frame length (R7). -/
def lenMax : Nat := 64

/-- `CLASSIC_LEN_MAX`: the largest length of a classic-CAN record (R7). -/
def classicLenMax : Nat := 8

/-- `PBUF_CAP`: the capacity of the payload buffer (R7, R40). -/
def pbufCap : Nat := 64

end Config
end Sys2Proof
end

