-- ==== Sys2Proof/WellFormed.lean ====
section
/-! DEFINITION. Well-formedness. An operand field has exactly the width its format gives it and every bit pattern of it
is a value (30_encoding.md R73), so `Instr` needs no check of its own. What can be ill-formed is the payload buffer that
accompanies a frame request: its canonical form, its capacity (20_memory.md R40), and whether `bufn` tells the truth
about it (70_reset_and_hazards.md R235). The last is the host's duty: CANMP cannot check it and the machine runs
without it. -/

namespace Sys2Proof

/-- The payload buffer PBUF: (byte index, byte) pairs in one canonical form, indices strictly rising. An index that is
not listed is a byte the host did not supply; it has no value here (DESIGN CHOICE, log entry 7). -/
abbrev Memory := List Host.Cell

/-- Byte indices strictly rising. -/
def Memory.rising : Memory → Bool
  | [] => true
  | [_] => true
  | c :: d :: rest => decide (c.1 < d.1) && Memory.rising (d :: rest)

/-- Every index is inside the buffer's capacity of 64 bytes (R40, R49). -/
def Memory.inCapacity (m : Memory) : Bool := m.all fun c => decide (c.1 < Config.pbufCap)

/-- The canonical form of a payload buffer. -/
def Memory.wf (m : Memory) : Bool := m.rising && m.inCapacity

/-- The host's duty of R235: the bytes supplied are exactly those at indices `0 .. bufn-1`. An operation without a
buffer owes nothing, and a `bufn` above 64 is no buffer size (R40), so there is none to be truthful about. -/
def Instr.bufferTruthful (i : Instr) (m : Memory) : Bool :=
  match i.bufn? with
  | none => true
  | some n => decide (n > Config.pbufCap) || m.map (·.1) == List.range n

/-- A request the host presents as it should: a canonical buffer, and a truthful count of it. -/
def Instr.wellPresented (i : Instr) (m : Memory) : Bool := m.wf && i.bufferTruthful m

end Sys2Proof
end

