-- ==== Sys2Proof/Machine/State.lean ====
section
/-! DEFINITION. The response of a transaction (30_encoding.md R71, 60_exceptions.md R200 to R210), the requests the
host presents, and State. CANMP itself keeps no state between transactions (10_state.md R20 to R29); State holds
what stands on its two interfaces, the host's requests in the host's order and the responses delivered so far, and one
field of the model's own for the free bytes (DESIGN CHOICE, log entries 1, 7). -/

namespace Sys2Proof.Machine

/-- The kind of a Category, the response field `kind` (R32). -/
inductive Kind where
  | standard
  | standardRTR
  | extended
  | extendedRTR
  | fdVariant
  | status
  | error
  deriving DecidableEq, Repr

/-- The cause of a non-OK response (R201). -/
inductive Cause where
  /-- The frame length exceeds the payload buffer size (R202); raised by FRN, FRC, FRF. -/
  | lenGtBuf
  /-- The frame length is outside its range (R203); raised by FRN and FRC. -/
  | lenRange
  /-- `bufn` is above 64 and is no buffer size (R204); raised by FRN, FRC, FRF. -/
  | bufnRange
  /-- Device type or channel index does not fit the selected handle layout (R206); raised by HENC. -/
  | hencRange
  /-- The operation code is reserved (R205); raised by the decoding of the request. -/
  | opReserved
  deriving DecidableEq, Repr

/-- The response field `status` (R200); the code 3 is never produced, so it has no constructor. -/
inductive Status where
  | ok
  | invalidArgument
  | illegalOperation
  deriving DecidableEq, Repr

/-- The result fields of a response (R71): every field but `status` and `cause`. A field that an operation does not
write is 0, and a text that it does not write is empty: those are the defaults here. -/
structure Results where
  /-- `devtype`: decoded device type. -/
  devtype   : BitVec 16 := 0
  /-- `chan`: decoded channel index. -/
  chan      : BitVec 8 := 0
  /-- `handle`: composed handle. -/
  handle    : BitVec 16 := 0
  /-- `kind`: Category kind (R32); its code 0 is Standard. -/
  kind      : Kind := .standard
  /-- `ext`: the base label is "EXT". -/
  ext       : Bool := false
  /-- `fd`: the bracket has the token FD. -/
  fd        : Bool := false
  /-- `brs`: the bracket has the token BRS. -/
  brs       : Bool := false
  /-- `esi`: the bracket has the token ESI. -/
  esi       : Bool := false
  /-- `amb`: an RTR kind hides FD, BRS or ESI bits (R124). -/
  amb       : Bool := false
  /-- `length`: payload byte count. -/
  length    : BitVec 8 := 0
  /-- `ts`: timestamp in microseconds. -/
  ts        : BitVec 64 := 0
  /-- `wrap`: the exact combined timestamp did not fit 64 bits (R152). -/
  wrap      : Bool := false
  /-- `ms_int`: integer part of the rounded millisecond value (R156). -/
  msInt     : BitVec 64 := 0
  /-- `ms_tenth`: its one decimal digit (R156). -/
  msTenth   : BitVec 4 := 0
  /-- `handle_txt`: result of HFMT. -/
  handleTxt : Text := []
  /-- `type_txt`: type label. -/
  typeTxt   : Text := []
  /-- `id_txt`: identifier label. -/
  idTxt     : Text := []
  /-- `len_txt`: length label. -/
  lenTxt    : Text := []
  /-- `time_txt`: time label. -/
  timeTxt   : Text := []
  /-- `data_txt`: data label. -/
  dataTxt   : Text := []
  deriving DecidableEq, Repr

/-- A response RESP: the results of an operation that completed, or an exception, which holds its cause (and through
it its status) and no result, as R210 asks (DEDUCED, log entry 4). The whole record of R71 is `Response.record` in
Machine/Ops.lean. -/
inductive Response where
  | ok (results : Results)
  | exception (cause : Cause)
  deriving DecidableEq, Repr

/-- The response record of R71 as the host sees it, with the codes of R200 and R201. -/
structure Record where
  status  : BitVec 2
  cause   : BitVec 3
  results : Results
  deriving DecidableEq, Repr

/-- One request as the host presents it: the request word, and the payload buffer captured with it (R22, R235;
log entry 12). -/
structure Request where
  req  : ReqWord
  pbuf : Memory
  deriving DecidableEq, Repr

/-- The state. Plain data. -/
structure State where
  /-- The host's requests not yet performed, in the host's order, the one now at the port first (R23, R236). -/
  queue     : List Request
  /-- The responses delivered so far, oldest first; no rule reads them (R20). -/
  responses : List Response
  /-- The model's own: the number of transactions performed, which indexes the free bytes (DESIGN CHOICE,
  log entry 7). -/
  serial    : Nat
  deriving DecidableEq, Repr

/-- Why the machine can stop with a fault. -/
inductive Fault where
  /-- A payload byte is read at an index at or above `bufn`, where R41 gives `MemRead` no meaning. Raised by the data
  label of FRN, FRC, FRF; the checks of R171 and R180 make it unreachable. Safe: it stops instead of giving a value
  (log entry 11). -/
  | readOutsideBuffer
  deriving DecidableEq, Repr

/-- Why an instruction has no meaning. -/
inductive Refusal where
  /-- An arm of `exec` that has no meaning yet. Raised by no arm of this model. Safe. -/
  | notModelled (mnemonic : String)
  deriving DecidableEq, Repr

/-- CANMP right after reset: idle, no transaction in progress, no response pending (R230). `serial` starts at 0
(DESIGN CHOICE, log entry 8). -/
def State.reset : State where
  queue     := []
  responses := []
  serial    := 0

end Sys2Proof.Machine
end

