-- ==== Sys2Proof/Machine/Ops.lean ====
section
/-! DEFINITION. The operations over State that the meanings share: the payload buffer, delivering a response, taking an
exception, the response record, and the host's side of the port. -/

namespace Sys2Proof

/-- The byte listed at index `a`, if the host supplied one. -/
def Memory.read (m : Memory) (a : Nat) : Option Byte := (m.find? fun c => c.1 == a).map (·.2)

/-- The buffer that holds `bytes`, `PBUF[0]` first (R81). -/
def Memory.ofBytesFrom (a : Nat) : List Byte → Memory
  | [] => []
  | b :: rest => (a, b) :: Memory.ofBytesFrom (a + 1) rest

/-- The buffer that holds `bytes` at indices from 0. -/
def Memory.ofBytes (bytes : List Byte) : Memory := Memory.ofBytesFrom 0 bytes

namespace Machine

/-- The code of the response field `kind` (R32). -/
def Kind.code : Kind → BitVec 3
  | .standard => 0
  | .standardRTR => 1
  | .extended => 2
  | .extendedRTR => 3
  | .fdVariant => 4
  | .status => 5
  | .error => 6

/-- The code of the response field `status` (R200). -/
def Status.code : Status → BitVec 2
  | .ok => 0
  | .invalidArgument => 1
  | .illegalOperation => 2

/-- The code of the response field `cause`; 0 is NONE (R201). -/
def Cause.code : Cause → BitVec 3
  | .lenGtBuf => 1
  | .lenRange => 2
  | .bufnRange => 3
  | .hencRange => 4
  | .opReserved => 5

/-- The status that goes with a cause (R201). -/
def Cause.status : Cause → Status
  | .lenGtBuf => .invalidArgument
  | .lenRange => .invalidArgument
  | .bufnRange => .invalidArgument
  | .hencRange => .invalidArgument
  | .opReserved => .illegalOperation

/-- The `status` of a response (R200). -/
def Response.status : Response → Status
  | .ok _ => .ok
  | .exception c => c.status

/-- The record of R71: on an OK response `cause` is 0 and the results stand as written; on an exception every field but
`status` and `cause` is 0 and every text is empty (R209). -/
def Response.record : Response → Record
  | .ok r => { status := Status.ok.code, cause := 0, results := r }
  | .exception c => { status := c.status.code, cause := c.code, results := {} }

namespace State

/-- The payload buffer of the request at the port (R40); empty when none is presented. -/
def pbuf (s : State) : Memory :=
  match s.queue with
  | [] => []
  | r :: _ => r.pbuf

/-- The byte that the buffer at the port holds at index `a`: the host's, or, where the host supplied none, a free value
(R235, V9; DESIGN CHOICE, log entry 7). -/
def bufByte (s : State) (a : Nat) : Byte := (s.pbuf.read a).getD (Config.unsuppliedByte s.serial a)

/-- Delivers a response to the host: the only effect an operation has (R21). -/
def deliver (r : Response) (s : State) : State := { s with responses := s.responses ++ [r] }

/-- After the response the transaction is over: its request and its buffer are gone, and nothing else (R22, R23). -/
def retire (s : State) : State := { s with queue := s.queue.tail, serial := s.serial + 1 }

/-- The host presents one more request, after those already in its order (R23, R236). -/
def present (r : Request) (s : State) : State := { s with queue := s.queue ++ [r] }

/-- Puts the request word `w` at the port, in place of the request word now there and with the buffer now there. -/
def presentWord (w : ReqWord) (s : State) : State := { s with queue := { req := w, pbuf := s.pbuf } :: s.queue.tail }

/-- A reset that arrives while the transaction at the port is in progress: it gets no response, and nothing else
changes (R230; DESIGN CHOICE, log entry 9). -/
def resetInProgress (s : State) : State := { s with queue := s.queue.tail }

end State

/-- An operation completes: status OK with the fields it writes (R72). -/
def complete (r : Results) (s : State) : Host.Outcome State Fault Refusal := .next (s.deliver (.ok r))

/-- Taking an exception (R209): the response with its status and cause is delivered in the place of the normal one, and
nothing else happens: nothing is saved, no mode changes, control goes nowhere. There is no return (R211). -/
def raise (c : Cause) (s : State) : Host.Outcome State Fault Refusal := .next (s.deliver (.exception c))

/-- Applies `f` to the next state, if there is one. -/
def onNext (f : State → State) : Host.Outcome State Fault Refusal → Host.Outcome State Fault Refusal
  | .next s => .next (f s)
  | .fault r => .fault r
  | .refused r => .refused r

end Machine
end Sys2Proof
end

