-- ==== Sys2Proof/Machine/DlcLength.lean ====
section
/-! DEFINITION. Family 3, DlcLengthTable: DLCL (43_dlc_length.md). -/

namespace Sys2Proof.Machine

/-- `DLC_TABLE` (R140). -/
def dlcTable : List Nat := [0, 1, 2, 3, 4, 5, 6, 7, 8, 12, 16, 20, 24, 32, 48, 64]

/-- `DLC_TABLE[dlc]`: the payload length of a data length code, whatever any flag is (R140, R142). -/
def lengthFromDlc (dlc : BitVec 4) : BitVec 8 := BitVec.ofNat 8 (dlcTable.getD dlc.toNat 0)

/-- DLCL (R140). -/
def execDlcl (dlc : BitVec 4) (s : State) : Host.Outcome State Fault Refusal :=
  complete { length := lengthFromDlc dlc } s

end Sys2Proof.Machine
end

