-- ==== Sys2Proof/Machine/Operands.lean ====
section
/-! DEFINITION. The operands of the block. Operands of the request word are the fields of `Instr` as they stand
(30_encoding.md R73); the payload operand is read from PBUF, one byte at a byte index, the only addressing mode (R74). -/

namespace Sys2Proof.Machine

/-- `MemRead(addr, 1)` (20_memory.md R41): partial, defined only below `bufn`. -/
def memRead (bufn addr : Nat) (s : State) : Option Byte := if addr < bufn then some (s.bufByte addr) else none

/-- The bytes `PBUF[i]`, …, `PBUF[i + n - 1]`, each read once, in increasing index order (R43). -/
def readBytes (bufn : Nat) (s : State) : Nat → Nat → Option (List Byte)
  | _, 0 => some []
  | i, n + 1 =>
    match memRead bufn i s with
    | none => none
    | some b =>
      match readBytes bufn s (i + 1) n with
      | none => none
      | some rest => some (b :: rest)

/-- The payload operand: the first `length` bytes of the buffer (R33, R43). -/
def payload (bufn length : Nat) (s : State) : Option (List Byte) := readBytes bufn s 0 length

end Sys2Proof.Machine
end

