-- ==== Sys2Proof/Machine/Text.lean ====
section
/-! DEFINITION. The text primitives of 00_scope.md R11 and R13: ASCII literals, `dec(n)` and `hexN(n)`. -/

namespace Sys2Proof.Machine

/-- The 8-bit characters of a text written in quotes in the spec (R13). -/
def ascii (cs : List Char) : Text := cs.map fun c => BitVec.ofNat 8 c.toNat

/-- The ASCII character of a digit, uppercase above 9 (R11). -/
def digitChar (d : Nat) : Byte := if d < 10 then BitVec.ofNat 8 (0x30 + d) else BitVec.ofNat 8 (0x41 + (d - 10))

/-- Digits of `n` in `base`, most significant first, put before `acc`; `fuel > n` is enough for a base of at least 2. -/
def digitsCore (base : Nat) : Nat → Nat → List Nat → List Nat
  | 0, _, acc => acc
  | fuel + 1, n, acc => if n < base then n :: acc else digitsCore base fuel (n / base) (n % base :: acc)

/-- Digits of `n` in `base`, most significant first (R45), without leading zeros; `[0]` for 0. -/
def digits (base n : Nat) : List Nat := digitsCore base (n + 1) n []

/-- `dec(n)`: decimal text, no sign, no leading zeros, "0" for zero (R11). -/
def dec (n : Nat) : Text := (digits 10 n).map digitChar

/-- `hexN(n)`: uppercase hexadecimal text padded with '0' on the left to at least `width` characters (R11). -/
def hex (width n : Nat) : Text :=
  let ds := (digits 16 n).map digitChar
  List.replicate (width - ds.length) (digitChar 0) ++ ds

end Sys2Proof.Machine
end

