-- ==== Sys2Proof/Machine/HandleCodec.lean ====
section
/-! DEFINITION. Family 1, ChannelHandleCodec: HDEC, HENC, HFMT (41_handle_codec.md). The device type is a number and is
never given a name (R101, R106). -/

namespace Sys2Proof.Machine

/-- Device type and channel index of a handle, by its magnitude (R100, R30). -/
def decodeHandle (handle : BitVec 16) : BitVec 16 × BitVec 8 :=
  if handle.toNat < Config.wideMin then (handle >>> 4, (handle &&& 0xF#16).setWidth 8)
  else (handle >>> 8, (handle &&& 0xFF#16).setWidth 8)

/-- The operands of HENC fit the layout that `wide` selects (R102). -/
def handleFits (wide : Bool) (devtype : BitVec 16) (chan : BitVec 8) : Bool :=
  if wide then decide (devtype.toNat ≠ 0 ∧ devtype.toNat ≤ 0xFF)
  else decide (devtype.toNat ≤ 0xF ∧ chan.toNat ≤ 0xF)

/-- The handle of a fitting pair: `(devtype << 4) | chan` or `(devtype << 8) | chan` (R102). -/
def composeHandle (wide : Bool) (devtype : BitVec 16) (chan : BitVec 8) : BitVec 16 :=
  if wide then (devtype <<< 8) ||| chan.setWidth 16 else (devtype <<< 4) ||| chan.setWidth 16

/-- The text of a handle (R104, R105). -/
def handleText (handle : BitVec 16) (isfd : Bool) : Text :=
  dec (decodeHandle handle).1.toNat ++ (if isfd then ascii [':', 'F', 'D'] else []) ++ ascii [' '] ++
    dec (decodeHandle handle).2.toNat ++ ascii [' ', '('] ++ hex 2 handle.toNat ++ ascii ['h', ')']

/-- HDEC (R100). -/
def execHdec (handle : BitVec 16) (s : State) : Host.Outcome State Fault Refusal :=
  complete { devtype := (decodeHandle handle).1, chan := (decodeHandle handle).2 } s

/-- HENC (R102): refuses what does not fit, never truncates. -/
def execHenc (wide : Bool) (devtype : BitVec 16) (chan : BitVec 8) (s : State) : Host.Outcome State Fault Refusal :=
  if handleFits wide devtype chan then complete { handle := composeHandle wide devtype chan } s
  else raise .hencRange s

/-- HFMT (R104). -/
def execHfmt (handle : BitVec 16) (isfd : Bool) (s : State) : Host.Outcome State Fault Refusal :=
  complete
    { devtype := (decodeHandle handle).1
      chan := (decodeHandle handle).2
      handleTxt := handleText handle isfd } s

end Sys2Proof.Machine
end

