-- ==== Sys2Proof/Machine/Flags.lean ====
section
/-! DEFINITION. The flag computations: the classification of a MessageTypeFlags word with the response bit `amb`
(42_type_flags.md R121, R124), and the response bit `wrap` (44_timestamp.md R152). The rules name the masks, never
their numbers (00_scope.md R8), so the mask layout is an argument. -/

namespace Sys2Proof.Machine

/-- The result of classification: the Category fields of the response (10_state.md R32). -/
structure Category where
  kind : Kind := .standard
  ext  : Bool := false
  fd   : Bool := false
  brs  : Bool := false
  esi  : Bool := false
  amb  : Bool := false
  deriving DecidableEq, Repr

/-- `(flags & mask) != 0`. -/
def hasFlag (flags mask : BitVec 8) : Bool := (flags &&& mask) != 0#8

/-- The classification, ordered, first match wins (R121). The comparison of step 5 is of the whole raw word. -/
def classify (m : Masks) (flags : BitVec 8) : Category :=
  if hasFlag flags m.status then { kind := .status }
  else if hasFlag flags m.errframe then { kind := .error }
  else
    let ext := hasFlag flags m.extended
    if hasFlag flags m.rtr then
      { kind := if ext then .extendedRTR else .standardRTR
        ext := ext
        amb := hasFlag flags (m.fd ||| m.brs ||| m.esi) }
    else if m.extended < flags then
      { kind := .fdVariant
        ext := ext
        fd := hasFlag flags m.fd
        brs := hasFlag flags m.brs
        esi := hasFlag flags m.esi }
    else
      { kind := if ext then .extended else .standard
        ext := ext }

/-- `wrap`: an exact sum does not fit 64 bits (R152). -/
def wraps (exact : Nat) : Bool := decide (2 ^ 64 ≤ exact)

end Sys2Proof.Machine
end

