-- ==== Sys2Proof/Machine/Timestamp.lean ====
section
/-! DEFINITION. Family 4, TimestampReconstructor: TSCMB, TSFMT (44_timestamp.md). Arithmetic is over the natural numbers
and is reduced only where a rule says so (00_scope.md R12); TSFMT is integer only (R157). -/

namespace Sys2Proof.Machine

/-- The exact sum `micros + 1000 * millis + 1000 * 2^32 * overflow` (R152); `micros` is not checked (R153). -/
def exactMicros (micros millis overflow : BitVec 32) : Nat :=
  micros.toNat + 1000 * millis.toNat + 1000 * 2 ^ 32 * overflow.toNat

/-- The combined timestamp: the exact sum modulo 2^64 (R152). -/
def combine (micros millis overflow : BitVec 32) : BitVec 64 := BitVec.ofNat 64 (exactMicros micros millis overflow)

/-- 1 when the part below one tenth of a millisecond rounds up: `q` whole tenths, `r` microseconds above (R156). -/
def roundUp (mode : FmtRound) (q r : Nat) : Nat :=
  match mode with
  | .halfUp => if 50 ≤ r then 1 else 0
  | .halfEven => if 50 < r ∨ (r = 50 ∧ q % 2 = 1) then 1 else 0

/-- `tenths` of R156: a microsecond count rounded to tenths of a millisecond. -/
def tenthsOf (mode : FmtRound) (ts : Nat) : Nat := ts / 100 + roundUp mode (ts / 100) (ts % 100)

/-- The text of a count of tenths of a millisecond (R156, R158). -/
def tenthsText (tenths : Nat) : Text := dec (tenths / 10) ++ ascii ['.'] ++ dec (tenths % 10)

/-- Writes `ms_int`, `ms_tenth` and `time_txt` of the timestamp `ts` into a response, under the rounding rule `mode`
(R156, R175). -/
def Results.withTime (mode : FmtRound) (r : Results) (ts : BitVec 64) : Results :=
  let tenths := tenthsOf mode ts.toNat
  { r with
    msInt := BitVec.ofNat 64 (tenths / 10)
    msTenth := BitVec.ofNat 4 (tenths % 10)
    timeTxt := tenthsText tenths }

/-- TSCMB (R152). -/
def execTscmb (micros millis overflow : BitVec 32) (s : State) : Host.Outcome State Fault Refusal :=
  complete { ts := combine micros millis overflow, wrap := wraps (exactMicros micros millis overflow) } s

/-- TSFMT under the parameters `p` (R156). -/
def execTsfmtWith (p : Params) (ts : BitVec 64) (s : State) : Host.Outcome State Fault Refusal :=
  complete (Results.withTime p.fmtRound {} ts) s

/-- TSFMT (R156). -/
def execTsfmt (ts : BitVec 64) (s : State) : Host.Outcome State Fault Refusal := execTsfmtWith Config.params ts s

end Sys2Proof.Machine
end

