-- ==== Sys2Proof/Machine/TypeFlags.lean ====
section
/-! DEFINITION. Family 2, MessageTypeFlags: MCLS and the type label (42_type_flags.md). -/

namespace Sys2Proof.Machine

/-- The base label of an FD variant (R123). -/
def baseLabel (ext : Bool) : Text := if ext then ascii ['E', 'X', 'T'] else ascii ['S', 'T', 'D']

/-- A token of the bracket, preceded by one space, when its bit is set (R123). -/
def token (present : Bool) (name : List Char) : Text := if present then ascii (' ' :: name) else []

/-- The type label, a function of the Category (R123). -/
def typeLabel (c : Category) : Text :=
  match c.kind with
  | .status => ascii ['S', 'T', 'A', 'T', 'U', 'S']
  | .error => ascii ['E', 'R', 'R', 'O', 'R']
  | .standard => ascii ['S', 'T', 'D']
  | .extended => ascii ['E', 'X', 'T']
  | .standardRTR => ascii ['S', 'T', 'D', '/', 'R', 'T', 'R']
  | .extendedRTR => ascii ['E', 'X', 'T', '/', 'R', 'T', 'R']
  | .fdVariant =>
      baseLabel c.ext ++ ascii [' ', '['] ++ token c.fd ['F', 'D'] ++ token c.brs ['B', 'R', 'S'] ++
        token c.esi ['E', 'S', 'I'] ++ ascii [' ', ']']

/-- Writes the Category fields and the type label of `flags` into a response, under the layout `m` (R121, R173). -/
def Results.withCategory (m : Masks) (r : Results) (flags : BitVec 8) : Results :=
  let c := classify m flags
  { r with
    kind := c.kind
    ext := c.ext
    fd := c.fd
    brs := c.brs
    esi := c.esi
    amb := c.amb
    typeTxt := typeLabel c }

/-- MCLS under the parameters `p` (R121): all 256 values are legal (R127). -/
def execMclsWith (p : Params) (flags : BitVec 8) (s : State) : Host.Outcome State Fault Refusal :=
  complete (Results.withCategory p.masks {} flags) s

/-- MCLS (R121). -/
def execMcls (flags : BitVec 8) (s : State) : Host.Outcome State Fault Refusal := execMclsWith Config.params flags s

end Sys2Proof.Machine
end

