-- ==== Sys2Proof/Machine/Frame.lean ====
section
/-! DEFINITION. Family 5, FrameFormatter: FRN, FRC, FRF (45_frame.md). -/

namespace Sys2Proof.Machine

/-- The checks of a frame operation, in the order of R171 (and of R180, with the classic bound): the first that fails is
the one reported (R208). They are made whatever the flags are (R177). -/
def checkFrame (maxLength length bufn : Nat) : Option Cause :=
  if bufn > Config.pbufCap then some .bufnRange
  else if length > maxLength then some .lenRange
  else if length > bufn then some .lenGtBuf
  else none

/-- The identifier label: the test is on the EXTENDED bit alone, and nothing of `id` is masked (R174). -/
def idLabel (m : Masks) (flags : BitVec 8) (id : BitVec 32) : Text :=
  (if hasFlag flags m.extended then hex 8 id.toNat else hex 3 id.toNat) ++ ascii ['h']

/-- The payload bytes as two-digit hexadecimal, one space between two of them (R176). -/
def bytesText : List Byte → Text
  | [] => []
  | [b] => hex 2 b.toNat
  | b :: c :: rest => hex 2 b.toNat ++ ascii [' '] ++ bytesText (c :: rest)

/-- `"Remote Request"` (R176). -/
def remoteRequest : Text := ascii ['R', 'e', 'm', 'o', 't', 'e', ' ', 'R', 'e', 'q', 'u', 'e', 's', 't']

/-- The data label: with RTR set no byte is read; else the first `length` bytes. `none` only if a read has no meaning
(R176, R41). -/
def dataLabel (m : Masks) (flags : BitVec 8) (length bufn : Nat) (s : State) : Option Text :=
  if hasFlag flags m.rtr then some remoteRequest else (payload bufn length s).map bytesText

/-- A checked Frame is rendered under the parameters `p` (R172): the five labels and the structured fields. -/
def renderFrame (p : Params) (id : BitVec 32) (flags length : BitVec 8) (ts : BitVec 64) (bufn : BitVec 7)
    (wrap : Bool) (s : State) : Host.Outcome State Fault Refusal :=
  match dataLabel p.masks flags length.toNat bufn.toNat s with
  | none => .fault .readOutsideBuffer
  | some data =>
    complete
      (Results.withTime p.fmtRound
        (Results.withCategory p.masks
          { length := length
            ts := ts
            wrap := wrap
            idTxt := idLabel p.masks flags id
            lenTxt := dec length.toNat
            dataTxt := data } flags) ts) s

/-- The shape of the three frame operations: the checks, then the rendering (R171, R172, R180, R182). -/
def checkAndRender (p : Params) (maxLength : Nat) (id : BitVec 32) (flags length : BitVec 8) (ts : BitVec 64)
    (bufn : BitVec 7) (wrap : Bool) (s : State) : Host.Outcome State Fault Refusal :=
  match checkFrame maxLength length.toNat bufn.toNat with
  | some c => raise c s
  | none => renderFrame p id flags length ts bufn wrap s

/-- FRN under the parameters `p` (R172). -/
def execFrnWith (p : Params) (id : BitVec 32) (flags length : BitVec 8) (ts : BitVec 64) (bufn : BitVec 7) (s : State) :
    Host.Outcome State Fault Refusal :=
  checkAndRender p Config.lenMax id flags length ts bufn false s

/-- FRC under the parameters `p` (R180): the classic bound, and the timestamp of TSCMB with its `wrap`. -/
def execFrcWith (p : Params) (id : BitVec 32) (flags len : BitVec 8) (micros millis overflow : BitVec 32)
    (bufn : BitVec 7) (s : State) : Host.Outcome State Fault Refusal :=
  checkAndRender p Config.classicLenMax id flags len (combine micros millis overflow) bufn
    (wraps (exactMicros micros millis overflow)) s

/-- FRF under the parameters `p` (R182): the length of the data length code, whatever the flags are. -/
def execFrfWith (p : Params) (id : BitVec 32) (flags : BitVec 8) (dlc : BitVec 4) (ts : BitVec 64) (bufn : BitVec 7)
    (s : State) : Host.Outcome State Fault Refusal :=
  checkAndRender p Config.lenMax id flags (lengthFromDlc dlc) ts bufn false s

/-- FRN (R172). -/
def execFrn (id : BitVec 32) (flags length : BitVec 8) (ts : BitVec 64) (bufn : BitVec 7) (s : State) :
    Host.Outcome State Fault Refusal :=
  execFrnWith Config.params id flags length ts bufn s

/-- FRC (R180). -/
def execFrc (id : BitVec 32) (flags len : BitVec 8) (micros millis overflow : BitVec 32) (bufn : BitVec 7)
    (s : State) : Host.Outcome State Fault Refusal :=
  execFrcWith Config.params id flags len micros millis overflow bufn s

/-- FRF (R182). -/
def execFrf (id : BitVec 32) (flags : BitVec 8) (dlc : BitVec 4) (ts : BitVec 64) (bufn : BitVec 7) (s : State) :
    Host.Outcome State Fault Refusal :=
  execFrfWith Config.params id flags dlc ts bufn s

end Sys2Proof.Machine
end

