-- ==== Sys2Proof/Machine/Dispatch.lean ====
section
/-! DEFINITION. One arm per constructor of `Instr` (30_encoding.md R76). -/

namespace Sys2Proof.Machine

def exec (i : Instr) (s : State) : Host.Outcome State Fault Refusal :=
  match i with
  | .hdec handle => Sys2Proof.Machine.execHdec handle s
  | .henc wide devtype chan => Sys2Proof.Machine.execHenc wide devtype chan s
  | .hfmt handle isfd => Sys2Proof.Machine.execHfmt handle isfd s
  | .mcls flags => Sys2Proof.Machine.execMcls flags s
  | .dlcl dlc => Sys2Proof.Machine.execDlcl dlc s
  | .tscmb micros millis overflow => Sys2Proof.Machine.execTscmb micros millis overflow s
  | .tsfmt ts => Sys2Proof.Machine.execTsfmt ts s
  | .frn id flags length ts bufn => Sys2Proof.Machine.execFrn id flags length ts bufn s
  | .frc id flags len micros millis overflow bufn => Sys2Proof.Machine.execFrc id flags len micros millis overflow bufn s
  | .frf id flags dlc ts bufn => Sys2Proof.Machine.execFrf id flags dlc ts bufn s

end Sys2Proof.Machine
end

