-- ==== Sys2Proof/Machine/Instance.lean ====
section
/-! DEFINITION. The operations of an instance with given parameters (00_scope.md R7, 70_reset_and_hazards.md R232). Five
operations read no parameter; `exec` is this function at the parameters of Config. -/

namespace Sys2Proof.Machine

/-- One operation under the parameters `p` (30_encoding.md R76). -/
def execWith (p : Params) (i : Instr) (s : State) : Host.Outcome State Fault Refusal :=
  match i with
  | .hdec handle => execHdec handle s
  | .henc wide devtype chan => execHenc wide devtype chan s
  | .hfmt handle isfd => execHfmt handle isfd s
  | .mcls flags => execMclsWith p flags s
  | .dlcl dlc => execDlcl dlc s
  | .tscmb micros millis overflow => execTscmb micros millis overflow s
  | .tsfmt ts => execTsfmtWith p ts s
  | .frn id flags length ts bufn => execFrnWith p id flags length ts bufn s
  | .frc id flags len micros millis overflow bufn => execFrcWith p id flags len micros millis overflow bufn s
  | .frf id flags dlc ts bufn => execFrfWith p id flags dlc ts bufn s

end Sys2Proof.Machine
end

