-- ==== Sys2Proof/Machine/Transaction.lean ====
section
/-! DEFINITION. One transaction (10_state.md R21): decode the request word at the port, perform the operation or raise
OP_RESERVED, and let the request go. It is written once, over the function that performs an operation. -/

namespace Sys2Proof.Machine

/-- Decodes a request word and performs it with `run`; a reserved operation code raises IllegalOperation(OP_RESERVED)
before any operand is looked at (R77, R205, R208). -/
def performBy (run : Instr → State → Host.Outcome State Fault Refusal) (req : ReqWord) (s : State) :
    Host.Outcome State Fault Refusal :=
  match decode req with
  | .error _ => raise .opReserved s
  | .ok i => run i s

/-- One transaction, atomic: the request at the port gets its response and is retired (R21, R22). With no request at the
port the block is idle and nothing changes (R230; DESIGN CHOICE, log entry 2). -/
def transactBy (run : Instr → State → Host.Outcome State Fault Refusal) (s : State) : Host.Outcome State Fault Refusal :=
  match s.queue with
  | [] => .next s
  | r :: _ => onNext State.retire (performBy run r.req s)

/-- One transaction of an instance with the parameters `p` (R21, R232). -/
def transactWith (p : Params) (s : State) : Host.Outcome State Fault Refusal := transactBy (execWith p) s

/-- One transaction of the instance that `exec` is of. -/
def transact (s : State) : Host.Outcome State Fault Refusal := transactBy exec s

end Sys2Proof.Machine
end

