-- ==== Sys2Proof/Machine/Step.lean ====
section
/-! DEFINITION. The step of the machine, and where a request word is put so that the next step performs it. -/

namespace Sys2Proof.Machine

/-- One step under the parameters `p`, which are arguments and not state (10_state.md R21, 70_reset_and_hazards.md
R232). -/
def stepWith (p : Params) (s : State) : Host.Outcome State Fault Refusal := transactWith p s

/-- One step of the instance with the parameters of Config: one transaction (10_state.md R21; DESIGN CHOICE, log
entry 19). -/
def step (s : State) : Host.Outcome State Fault Refusal := transact s

/-- The host presents the word `w` of `nbits` bits at the port, with the buffer that stands there (DESIGN CHOICE,
log entry 3). -/
def State.withFetchWord (s : State) (nbits w : Nat) : State := s.presentWord (BitVec.ofNat 160 (w % 2 ^ nbits))

end Sys2Proof.Machine
end

