-- ==== Sys2Proof/Safety.lean ====
section
/-! DEFINITION. What the claims speak of: which requests are refused and why (60_exceptions.md R201 to R208), which
responses are legal (30_encoding.md R71, 00_scope.md R13), the invariant of the machine, and a safe run. -/

namespace Sys2Proof

open Machine

/-- The first cause of an ordered list whose condition holds (R208). -/
def firstCause : List (Bool × Cause) → Option Cause
  | [] => none
  | (holds, c) :: rest => if holds then some c else firstCause rest

/-- The three conditions of a frame operation in the order of R208. -/
def frameCause (maxLength length bufn : Nat) : Option Cause :=
  firstCause
    [(decide (64 < bufn), .bufnRange), (decide (maxLength < length), .lenRange), (decide (bufn < length), .lenGtBuf)]

/-- The exception an operation raises, by its operands alone (R201, R206, R208); `none`: its operands meet the caller's
contract. -/
def Instr.cause? : Instr → Option Cause
  | .hdec _ => none
  | .henc wide devtype chan =>
      firstCause
        [(!wide && (decide (15 < devtype.toNat) || decide (15 < chan.toNat)), .hencRange),
          (wide && (decide (devtype.toNat = 0) || decide (255 < devtype.toNat)), .hencRange)]
  | .hfmt _ _ => none
  | .mcls _ => none
  | .dlcl _ => none
  | .tscmb _ _ _ => none
  | .tsfmt _ => none
  | .frn _ _ length _ bufn => frameCause 64 length.toNat bufn.toNat
  | .frc _ _ len _ _ _ bufn => frameCause 8 len.toNat bufn.toNat
  | .frf _ _ dlc _ bufn => frameCause 64 (dlcTable.getD dlc.toNat 0) bufn.toNat

namespace Machine

/-- The bytes that PBUF holds at indices `0 .. bufn-1` are all the host's: `bufn` does not overstate the buffer (R235); a
`bufn` above 64 is no buffer size and claims no byte (R40). A premise of the claims that compare two transactions. -/
def Request.supplied (r : Request) : Prop :=
  ∀ i, decode r.req = .ok i → ∀ n, i.bufn? = some n → n ≤ Config.pbufCap → ∀ a, a < n → (r.pbuf.read a).isSome

/-- A character that a text of CANMP may hold (R13). -/
def legalChar (c : Byte) : Bool :=
  (ascii [' ', '(', ')', '.', '/', ':', '[', ']', 'e', 'm', 'o', 't', 'q', 'u', 's', 'h']).contains c ||
    (0x30#8 ≤ c && c ≤ 0x39#8) || (0x41#8 ≤ c && c ≤ 0x5A#8)

/-- The texts of a response. -/
def Results.texts (r : Results) : List Text :=
  [r.handleTxt, r.typeTxt, r.idTxt, r.lenTxt, r.timeTxt, r.dataTxt]

/-- The bounds and the relations that the result fields of every response meet. -/
structure Results.Legal (r : Results) : Prop where
  /-- One decimal digit (R71). -/
  msTenth   : r.msTenth.toNat ≤ 9
  /-- At most 64 payload bytes (R71). -/
  length    : r.length.toNat ≤ 64
  /-- Maximum lengths of the texts (R71). -/
  handleTxt : r.handleTxt.length ≤ 18
  typeTxt   : r.typeTxt.length ≤ 18
  idTxt     : r.idTxt.length ≤ 9
  lenTxt    : r.lenTxt.length ≤ 2
  timeTxt   : r.timeTxt.length ≤ 19
  dataTxt   : r.dataTxt.length ≤ 191
  /-- The characters of the texts (R13). -/
  chars     : ∀ t ∈ r.texts, ∀ c ∈ t, legalChar c = true
  /-- Tokens stand in the bracket of an FD variant only (R32). -/
  tokens    : r.kind ≠ .fdVariant → r.fd = false ∧ r.brs = false ∧ r.esi = false
  /-- `ext` repeats the kind, but for an FD variant (R32). -/
  ext       : r.kind ≠ .fdVariant → r.ext = decide (r.kind = .extended ∨ r.kind = .extendedRTR)
  /-- `amb` marks an RTR kind (R124). -/
  amb       : r.amb = true → r.kind = .standardRTR ∨ r.kind = .extendedRTR
  /-- The time text says what the numbers say (R160). -/
  time      : r.timeTxt = [] ∨ r.timeTxt = dec r.msInt.toNat ++ ascii ['.'] ++ dec r.msTenth.toNat

/-- A response whose record is legal; on an exception its result fields are 0 and its texts empty (R209). -/
def Response.Legal (r : Response) : Prop := r.record.results.Legal

/-- The invariant: every delivered response is legal, and every buffer the host has queued is in canonical form. -/
structure State.Inv (s : State) : Prop where
  responses : ∀ r ∈ s.responses, r.Legal
  buffers   : ∀ q ∈ s.queue, q.pbuf.wf = true

/-- A safe run of `n` steps from `s`: no step of it stops. -/
def SafeRun (n : Nat) (s : State) : Prop := ∃ t, Host.Core.run Sys2Proof.core n s = .next t

end Machine
end Sys2Proof
end

