-- ==== Sys2Proof/Certificates/Slice0/Obligations.lean ====
section
/-! DEFINITION. The statements for the provers. The helpers below say the effect of a rule once, in the rule's own
words, for the statements that share it. -/

open Sys2Proof Sys2Proof.Machine

namespace Sys2Proof.Spec

/-- The state after an operation delivered the response `x`: nothing else is changed (10_state.md R21). -/
def answered (s : State) (x : Response) : State :=
  { queue := s.queue, responses := s.responses ++ [x], serial := s.serial }

/-- The state after the transaction of the request before `rest` delivered the response `x` (R21 to R23). -/
def performed (s : State) (rest : List Request) (x : Response) : State :=
  { queue := rest, responses := s.responses ++ [x], serial := s.serial + 1 }

/-- The Category fields of 42_type_flags.md R121 under the mask layout `m`, first match wins. -/
def CategoryFieldsIn (m : Masks) (flags : BitVec 8) (r : Results) : Prop :=
  let ext := decide (flags &&& m.extended ≠ 0#8)
  (r.kind, r.ext, r.fd, r.brs, r.esi, r.amb) =
    if flags &&& m.status ≠ 0#8 then (.status, false, false, false, false, false)
    else if flags &&& m.errframe ≠ 0#8 then (.error, false, false, false, false, false)
    else if flags &&& m.rtr ≠ 0#8 then
      (if ext then .extendedRTR else .standardRTR, ext, false, false, false,
        decide (flags &&& m.fd ≠ 0#8 ∨ flags &&& m.brs ≠ 0#8 ∨ flags &&& m.esi ≠ 0#8))
    else if m.extended.toNat < flags.toNat then
      (.fdVariant, ext, decide (flags &&& m.fd ≠ 0#8), decide (flags &&& m.brs ≠ 0#8),
        decide (flags &&& m.esi ≠ 0#8), false)
    else (if ext then .extended else .standard, ext, false, false, false, false)

/-- The Category fields under the mask layout of Config. -/
def CategoryFields (flags : BitVec 8) (r : Results) : Prop := CategoryFieldsIn Config.masks flags r

/-- The type label of R123, from the Category fields. -/
def LabelField (r : Results) : Prop :=
  (r.kind = .status → r.typeTxt = ascii ['S', 'T', 'A', 'T', 'U', 'S']) ∧
  (r.kind = .error → r.typeTxt = ascii ['E', 'R', 'R', 'O', 'R']) ∧
  (r.kind = .standard → r.typeTxt = ascii ['S', 'T', 'D']) ∧
  (r.kind = .extended → r.typeTxt = ascii ['E', 'X', 'T']) ∧
  (r.kind = .standardRTR → r.typeTxt = ascii ['S', 'T', 'D', '/', 'R', 'T', 'R']) ∧
  (r.kind = .extendedRTR → r.typeTxt = ascii ['E', 'X', 'T', '/', 'R', 'T', 'R']) ∧
  (r.kind = .fdVariant →
    r.typeTxt =
      (if r.ext then ascii ['E', 'X', 'T'] else ascii ['S', 'T', 'D']) ++ ascii [' ', '['] ++
        (if r.fd then ascii [' ', 'F', 'D'] else []) ++ (if r.brs then ascii [' ', 'B', 'R', 'S'] else []) ++
        (if r.esi then ascii [' ', 'E', 'S', 'I'] else []) ++ ascii [' ', ']'])

/-- The time fields of 44_timestamp.md R156, under the rounding rule `mode`. -/
def TimeFieldsIn (mode : FmtRound) (ts : BitVec 64) (r : Results) : Prop :=
  ∃ tenths : Nat,
    tenths = ts.toNat / 100 +
      (if mode = .halfUp then if 50 ≤ ts.toNat % 100 then 1 else 0
      else if 50 < ts.toNat % 100 ∨ (ts.toNat % 100 = 50 ∧ ts.toNat / 100 % 2 = 1) then 1 else 0) ∧
    r.msInt.toNat = tenths / 10 ∧ r.msTenth.toNat = tenths % 10 ∧
    r.timeTxt = dec (tenths / 10) ++ ascii ['.'] ++ dec (tenths % 10)

/-- The time fields under whichever value `FMT_ROUND` has. -/
def TimeFields (ts : BitVec 64) (r : Results) : Prop := TimeFieldsIn Config.fmtRound ts r

/-- The data label of 45_frame.md R176 for a frame of `length` bytes in the buffer at the port of `s`, under the mask
layout `m`. -/
def dataText (m : Masks) (flags : BitVec 8) (length : Nat) (s : State) : Text :=
  if flags &&& m.rtr ≠ 0#8 then
    ascii ['R', 'e', 'm', 'o', 't', 'e', ' ', 'R', 'e', 'q', 'u', 'e', 's', 't']
  else List.intercalate (ascii [' ']) ((List.range length).map fun i => hex 2 (s.bufByte i).toNat)

/-- The results of rendering a frame under the parameters `p` (45_frame.md R172 to R176): the fields of FRN in
30_encoding.md R72 as the rules give them, and every other field 0 or empty. -/
structure RendersFrameIn (p : Params) (id : BitVec 32) (flags : BitVec 8) (n : Nat) (ts : BitVec 64) (wrap : Bool)
    (s : State) (r : Results) : Prop where
  category  : CategoryFieldsIn p.masks flags r
  typeTxt   : LabelField r
  time      : TimeFieldsIn p.fmtRound ts r
  length    : r.length.toNat = n
  ts        : r.ts = ts
  wrap      : r.wrap = wrap
  idTxt     : r.idTxt = (if flags &&& p.masks.extended ≠ 0#8 then hex 8 id.toNat else hex 3 id.toNat) ++ ascii ['h']
  lenTxt    : r.lenTxt = dec n
  dataTxt   : r.dataTxt = dataText p.masks flags n s
  unwritten : r.devtype = 0 ∧ r.chan = 0 ∧ r.handle = 0 ∧ r.handleTxt = []

/-- The results of rendering a frame under the parameters of Config. -/
def RendersFrame (id : BitVec 32) (flags : BitVec 8) (n : Nat) (ts : BitVec 64) (wrap : Bool) (s : State)
    (r : Results) : Prop :=
  RendersFrameIn Config.params id flags n ts wrap s r

/-- The operands fit the handle layout that `wide` selects (41_handle_codec.md R102). -/
def Fits (wide : Bool) (devtype : BitVec 16) (chan : BitVec 8) : Prop :=
  (wide = false ∧ devtype.toNat ≤ 15 ∧ chan.toNat ≤ 15) ∨ (wide = true ∧ 1 ≤ devtype.toNat ∧ devtype.toNat ≤ 255)

/-- `DLC_TABLE` of 43_dlc_length.md R140. -/
def dlcLength (dlc : BitVec 4) : Nat :=
  if dlc.toNat ≤ 8 then dlc.toNat
  else if dlc.toNat ≤ 12 then 12 + 4 * (dlc.toNat - 9)
  else if dlc.toNat = 13 then 32
  else if dlc.toNat = 14 then 48
  else 64

/-- The exact sum of 44_timestamp.md R152. -/
def exactSum (micros millis overflow : BitVec 32) : Nat :=
  micros.toNat + 1000 * millis.toNat + 4294967296000 * overflow.toNat

/-- The number that decimal or hexadecimal digit characters stand for, most significant first. -/
def valueOf (base : Nat) (t : Text) : Nat :=
  t.foldl (fun n c => n * base + if c.toNat < 0x3A then c.toNat - 0x30 else c.toNat - 0x37) 0

/-- All 256 flags words. -/
def flagWords : List (BitVec 8) := (List.range 256).map (BitVec.ofNat 8)

/-- The kind of a flags word with the layout of 00_scope.md R7. -/
def kindOf (flags : BitVec 8) : Kind := (classify Config.masks flags).kind

end Sys2Proof.Spec

open Sys2Proof.Spec

/-! ## Encoding and decoding -/

/-- Words written out in 95_test_vectors.md decode to the operations they stand for (R61 to R70). -/
def Obligations.SpecWordsDecode : Prop :=
  decode 0x0000000000000000000000000000000000000511 = .ok (.hdec 0x51) ∧
  decode 0x00000000000000000000000000000000012000B2 = .ok (.henc true 5 9) ∧
  decode 0x0000000000000000000000000000000000105093 = .ok (.hfmt 0x509 true) ∧
  decode 0x00000000000000000000000000000000000000E4 = .ok (.mcls 0x0E) ∧
  decode 0x0000000000000000000000000000000000000095 = .ok (.dlcl 9) ∧
  decode 0x000000000000000000000000000000A000001F46 = .ok (.tscmb 500 10 0) ∧
  decode 0x0000000000000000000000000000000000005DC7 = .ok (.tsfmt 1500) ∧
  decode 0x0000000000800000000000029040300000001238 = .ok (.frn 0x123 0 3 10500 8) ∧
  decode 0x008000000000000000A000001F40300000001239 = .ok (.frc 0x123 0 3 500 10 0 8) ∧
  decode 0x0000000004000000000000005DC090E001ABCDEA = .ok (.frf 0x1ABCDE 0x0E 9 1500 64) ∧
  decode 0 = .error (.opReserved 0)

/-- The operand fields of every format are the bits its table names, numbered from bit 0 of the request word, and `op`
alone selects the format (R61 to R67, and the field tables of R68 to R70). -/
def Obligations.EveryFormatReadsItsFields : Prop :=
  ∀ w : ReqWord,
    (w.toNat % 16 = 0x1 → decode w = .ok (.hdec (.ofNat 16 (w.toNat / 2 ^ 4)))) ∧
    (w.toNat % 16 = 0x2 → decode w = .ok (.henc (decide (w.toNat / 2 ^ 4 % 2 = 1)) (.ofNat 16 (w.toNat / 2 ^ 5))
      (.ofNat 8 (w.toNat / 2 ^ 21)))) ∧
    (w.toNat % 16 = 0x3 → decode w = .ok (.hfmt (.ofNat 16 (w.toNat / 2 ^ 4)) (decide (w.toNat / 2 ^ 20 % 2 = 1)))) ∧
    (w.toNat % 16 = 0x4 → decode w = .ok (.mcls (.ofNat 8 (w.toNat / 2 ^ 4)))) ∧
    (w.toNat % 16 = 0x5 → decode w = .ok (.dlcl (.ofNat 4 (w.toNat / 2 ^ 4)))) ∧
    (w.toNat % 16 = 0x6 → decode w = .ok (.tscmb (.ofNat 32 (w.toNat / 2 ^ 4)) (.ofNat 32 (w.toNat / 2 ^ 36))
      (.ofNat 32 (w.toNat / 2 ^ 68)))) ∧
    (w.toNat % 16 = 0x7 → decode w = .ok (.tsfmt (.ofNat 64 (w.toNat / 2 ^ 4)))) ∧
    (w.toNat % 16 = 0x8 → decode w = .ok (.frn (.ofNat 32 (w.toNat / 2 ^ 4)) (.ofNat 8 (w.toNat / 2 ^ 36))
      (.ofNat 8 (w.toNat / 2 ^ 44)) (.ofNat 64 (w.toNat / 2 ^ 52)) (.ofNat 7 (w.toNat / 2 ^ 116)))) ∧
    (w.toNat % 16 = 0x9 → decode w = .ok (.frc (.ofNat 32 (w.toNat / 2 ^ 4)) (.ofNat 8 (w.toNat / 2 ^ 36))
      (.ofNat 8 (w.toNat / 2 ^ 44)) (.ofNat 32 (w.toNat / 2 ^ 52)) (.ofNat 32 (w.toNat / 2 ^ 84))
      (.ofNat 32 (w.toNat / 2 ^ 116)) (.ofNat 7 (w.toNat / 2 ^ 148)))) ∧
    (w.toNat % 16 = 0xA → decode w = .ok (.frf (.ofNat 32 (w.toNat / 2 ^ 4)) (.ofNat 8 (w.toNat / 2 ^ 36))
      (.ofNat 4 (w.toNat / 2 ^ 44)) (.ofNat 64 (w.toNat / 2 ^ 52)) (.ofNat 7 (w.toNat / 2 ^ 116))))

/-- Decoding the encoding of any operation gives the operation back, with every operand at every value. -/
def Obligations.DecodeInvertsEncode : Prop :=
  ∀ i : Instr, decode (encode i) = .ok i

/-- Encoding what a word decodes to gives the word back on the bits its format uses, and 0 on every ignored bit. -/
def Obligations.EncodeKeepsExactlyTheUsedBits : Prop :=
  ∀ (w : ReqWord) (i : Instr), decode w = .ok i →
    ∀ k, k < 160 → (encode i).getLsbD k = (w.getLsbD k && usesBit (opOf w) k)

/-- Ignored bits do not matter, and the decoder is total: ten codes decode, six raise (R78, which the
spec derives from R60 and R77). -/
def Obligations.IgnoredBitsHaveNoEffect : Prop :=
  (∀ w w' : ReqWord, (∀ k, k < 160 → usesBit (opOf w) k = true → w.getLsbD k = w'.getLsbD k) →
    ∀ (m : Memory) (rest : List Request) (xs : List Response) (n : Nat),
      step { queue := { req := w, pbuf := m } :: rest, responses := xs, serial := n } =
        step { queue := { req := w', pbuf := m } :: rest, responses := xs, serial := n }) ∧
  (∀ w : ReqWord, (∃ i, decode w = .ok i) ↔ (1 ≤ (opOf w).toNat ∧ (opOf w).toNat ≤ 10)) ∧
  (∀ w : ReqWord, (¬ ∃ i, decode w = .ok i) → decode w = .error (.opReserved (opOf w)))

/-- A reserved operation code raises IllegalOperation(OP_RESERVED), whatever the other bits are (R205). -/
def Obligations.ReservedOpcodeRaises : Prop :=
  ∀ (s : State) (r : Request) (rest : List Request), s.queue = r :: rest →
    (r.req.toNat % 16 = 0 ∨ 11 ≤ r.req.toNat % 16) →
    step s = .next (performed s rest (.exception .opReserved)) ∧
      (Response.exception .opReserved).status = .illegalOperation

/-! ## The step -/

/-- When the word at the port decodes to an operation, the step is `exec` of it at that state, followed by letting the
request go and counting the transaction; the buffer `exec` reads is the request's. -/
def Obligations.StepRunsTheDecodedOperation : Prop :=
  ∀ (s : State) (r : Request) (rest : List Request) (i : Instr), s.queue = r :: rest → decode r.req = .ok i →
    s.pbuf = r.pbuf ∧
    step s =
      match exec i s with
      | .next t => .next { queue := t.queue.tail, responses := t.responses, serial := t.serial + 1 }
      | .fault f => .fault f
      | .refused x => .refused x

/-- The model's choice (log entry 2): with no request at the port a step changes nothing. -/
def Obligations.IdleStepChangesNothing : Prop :=
  ∀ s : State, s.queue = [] → step s = .next s

/-- Every request gets a response: the step is total, it never stops, and it delivers exactly one response (R238). -/
def Obligations.EveryRequestGetsOneResponse : Prop :=
  ∀ (s : State) (r : Request) (rest : List Request), s.queue = r :: rest →
    ∃ x, step s = .next (performed s rest x)

/-- The response is a function of REQ, `bufn` and the bytes at indices `0 .. bufn-1`, and of nothing else: not of
earlier transactions, not of what else is queued (R36, which the spec derives from R20 to R22). -/
def Obligations.EqualTransactionsHaveEqualResponses : Prop :=
  ∀ (s s' : State) (r r' : Request) (rest rest' : List Request),
    s.queue = r :: rest → s'.queue = r' :: rest' → r.req = r'.req →
    (∀ i n, decode r.req = .ok i → i.bufn? = some n → n ≤ 64 → ∀ a, a < n → s.bufByte a = s'.bufByte a) →
    ∃ x, step s = .next (performed s rest x) ∧ step s' = .next (performed s' rest' x)

/-- Responses come back in request order, each the one that an idle block with nothing delivered gives that request
alone, whatever its transaction count is. -/
def Obligations.ResponsesComeBackInRequestOrder : Prop :=
  ∀ s : State, (∀ r ∈ s.queue, r.supplied) →
    ∃ xs : List Response, xs.length = s.queue.length ∧
      Host.Core.run Sys2Proof.core s.queue.length s =
        .next ({ queue := [], responses := s.responses ++ xs, serial := s.serial + s.queue.length } : State) ∧
      ∀ (k : Nat) (r : Request), s.queue[k]? = some r →
        ∃ x, xs[k]? = some x ∧
          ∀ n, step { queue := [r], responses := [], serial := n } =
            .next { queue := [], responses := [x], serial := n + 1 }

/-- The request after a refused one is handled exactly as if the refused one had not been made: no sticky fault. -/
def Obligations.RefusedRequestLeavesNoMark : Prop :=
  ∀ (s t : State) (r r' : Request) (rest : List Request) (c : Cause),
    s.queue = r :: r' :: rest → r'.supplied → step s = .next t → t.responses = s.responses ++ [.exception c] →
    ∃ x, step t = .next (performed t rest x) ∧
      step { s with queue := r' :: rest } = .next (performed s rest x)

/-- Transactions may be performed in any order: exchanging two neighbours exchanges their responses and changes neither
(R52). -/
def Obligations.TransactionsCommute : Prop :=
  ∀ (s : State) (a b : Request) (rest : List Request), s.queue = a :: b :: rest → a.supplied → b.supplied →
    ∃ x y,
      Host.Core.run Sys2Proof.core 2 s =
        .next ({ queue := rest, responses := s.responses ++ [x, y], serial := s.serial + 2 } : State) ∧
      Host.Core.run Sys2Proof.core 2 ({ s with queue := b :: a :: rest } : State) =
        .next ({ queue := rest, responses := s.responses ++ [y, x], serial := s.serial + 2 } : State)

/-- The frame of every operation: when `exec` answers a next state, one response was added to those delivered, and the
queue, the transaction count and every byte of every buffer, the one at the port and the ones queued, are unchanged.
Every operation answers a next state. -/
def Obligations.OperationsOnlyDeliverOneResponse : Prop :=
  ∀ (i : Instr) (s : State), ∃ t, exec i s = .next t ∧
    (∃ x, t.responses = s.responses ++ [x]) ∧ t.queue = s.queue ∧ t.serial = s.serial ∧
    (∀ a, t.bufByte a = s.bufByte a) ∧ (∀ bufn a, memRead bufn a t = memRead bufn a s) ∧
    (∀ a, t.pbuf.read a = s.pbuf.read a)

/-- The seven operations without a buffer do not examine PBUF, and no operation looks at the queue, at earlier responses
or at the transaction count but through the bytes of its buffer. -/
def Obligations.OperationsWithoutBufferReadNoByte : Prop :=
  ∀ (i : Instr), i.bufn? = none → ∃ x, ∀ s : State, exec i s = .next (answered s x)

/-! ## Reset -/

/-- After reset the block is idle and no response is pending (R230). That an idle step changes nothing is
the model's choice (log entry 2). -/
def Obligations.ResetIsIdle : Prop :=
  State.reset.queue = [] ∧ State.reset.responses = [] ∧ step State.reset = .next State.reset

/-- The model's reading of R230 (log entry 9): a transaction cut by a reset gets no response, presenting it again gets
the response it would have had, and nothing that was delivered or queued behind it is touched. -/
def Obligations.ResetInProgressGivesNoResponse : Prop :=
  ∀ (s : State) (r : Request), s.queue = [r] →
    s.resetInProgress.responses = s.responses ∧ step s.resetInProgress = .next s.resetInProgress ∧
    step (s.resetInProgress.present r) = step s ∧
    ∀ rest : List Request, ({ s with queue := r :: rest } : State).resetInProgress.queue = rest

/-! ## Texts -/

/-- `dec(n)`: decimal digits that stand for `n`, no leading zero, "0" for zero (R11). -/
def Obligations.DecimalTextStandsForItsNumber : Prop :=
  ∀ n : Nat, valueOf 10 (dec n) = n ∧ (∀ c ∈ dec n, 0x30 ≤ c.toNat ∧ c.toNat ≤ 0x39) ∧ dec n ≠ [] ∧
    ((dec n).head? = some 0x30#8 → n = 0) ∧ (n = 0 → dec n = [0x30#8])

/-- `hexN(n)`: uppercase digits that stand for `n`; exactly N of them, zeros on the left, when they suffice, and
otherwise as many as `n` needs, none of them a leading zero (R11). -/
def Obligations.HexTextStandsForItsNumber : Prop :=
  ∀ width n : Nat, 1 ≤ width →
    valueOf 16 (hex width n) = n ∧
    (∀ c ∈ hex width n, (0x30 ≤ c.toNat ∧ c.toNat ≤ 0x39) ∨ (0x41 ≤ c.toNat ∧ c.toNat ≤ 0x46)) ∧
    (n < 16 ^ width → (hex width n).length = width) ∧
    (16 ^ width ≤ n → width < (hex width n).length ∧ (hex width n).head? ≠ some 0x30#8)

/-! ## The channel-handle codec -/

/-- HDEC decodes by magnitude: below 0x100 four channel bits, from 0x100 on eight; it writes `devtype` and `chan` and
nothing else (R100). -/
def Obligations.HdecDecodesByMagnitude : Prop :=
  ∀ (handle : BitVec 16) (s : State), ∃ (t : BitVec 16) (c : BitVec 8),
    exec (.hdec handle) s = .next (answered s (.ok { devtype := t, chan := c })) ∧
    (handle.toNat < 0x100 → t.toNat = handle.toNat / 16 ∧ c.toNat = handle.toNat % 16) ∧
    (0x100 ≤ handle.toNat → t.toNat = handle.toNat / 256 ∧ c.toNat = handle.toNat % 256)

/-- HENC composes every pair that fits the selected layout; it writes `handle` and nothing else. -/
def Obligations.HencComposesWhatFits : Prop :=
  ∀ (wide : Bool) (devtype : BitVec 16) (chan : BitVec 8) (s : State), Fits wide devtype chan →
    ∃ h : BitVec 16, exec (.henc wide devtype chan) s = .next (answered s (.ok { handle := h })) ∧
      h.toNat = (if wide then 256 else 16) * devtype.toNat + chan.toNat ∧ (wide = true ↔ 0x100 ≤ h.toNat)

/-- HENC raises InvalidArgument(HENC_RANGE) exactly when the operands do not fit (R206). -/
def Obligations.HencRaisesExactlyWhenItDoesNotFit : Prop :=
  ∀ (wide : Bool) (devtype : BitVec 16) (chan : BitVec 8) (s : State),
    exec (.henc wide devtype chan) s = .next (answered s (.exception .hencRange)) ↔
      (wide = false ∧ (15 < devtype.toNat ∨ 15 < chan.toNat)) ∨
        (wide = true ∧ (devtype.toNat = 0 ∨ 255 < devtype.toNat))

/-- The round-trip laws of R103 (which the spec derives from R100 and R102) between HENC and HDEC: compose then decode,
decode then compose, and that every narrow pair with a device type has a wide handle too. (c) of R103 follows from the
first two. -/
def Obligations.HandleRoundTrips : Prop :=
  (∀ (wide : Bool) (t : BitVec 16) (c : BitVec 8) (h : BitVec 16) (s : State),
    exec (.henc wide t c) s = .next (answered s (.ok { handle := h })) →
    exec (.hdec h) s = .next (answered s (.ok { devtype := t, chan := c }))) ∧
  (∀ (h t : BitVec 16) (c : BitVec 8) (s : State),
    exec (.hdec h) s = .next (answered s (.ok { devtype := t, chan := c })) →
    exec (.henc (decide (0x100 ≤ h.toNat)) t c) s = .next (answered s (.ok { handle := h }))) ∧
  (∀ (t : BitVec 16) (c : BitVec 8) (s : State), 1 ≤ t.toNat → t.toNat ≤ 15 → c.toNat ≤ 15 →
    ∃ h h' : BitVec 16, h ≠ h' ∧
      exec (.hdec h) s = .next (answered s (.ok { devtype := t, chan := c })) ∧
      exec (.hdec h') s = .next (answered s (.ok { devtype := t, chan := c })))

/-- HFMT renders the decoded handle (R104). -/
def Obligations.HfmtRendersTheHandle : Prop :=
  ∀ (handle : BitVec 16) (isfd : Bool) (s : State), ∃ (t : BitVec 16) (c : BitVec 8),
    exec (.hdec handle) s = .next (answered s (.ok { devtype := t, chan := c })) ∧
    exec (.hfmt handle isfd) s = .next (answered s (.ok {
      devtype := t
      chan := c
      handleTxt := dec t.toNat ++ (if isfd then ascii [':', 'F', 'D'] else []) ++ ascii [' '] ++ dec c.toNat ++
        ascii [' ', '('] ++ hex 2 handle.toNat ++ ascii ['h', ')'] }))

/-! ## Message type flags -/

/-- MCLS classifies every flags word, first match wins, and labels it; it writes the seven fields of R72 only (R121). -/
def Obligations.MclsClassifies : Prop :=
  ∀ (flags : BitVec 8) (s : State), ∃ r : Results,
    exec (.mcls flags) s = .next (answered s (.ok r)) ∧ CategoryFields flags r ∧ LabelField r ∧
    r = { kind := r.kind, ext := r.ext, fd := r.fd, brs := r.brs, esi := r.esi, amb := r.amb, typeTxt := r.typeTxt }

/-- The precedence properties of R125 (derived from R121), for every mask layout in which the rules read as written
(R8): STATUS first, then ERRFRAME, then RTR, which hides the FD tokens and says so in `amb`; what is left above EXTENDED
is an FD variant with exactly the tokens whose bits are set. -/
def Obligations.PrecedenceHoldsForEveryMaskLayout : Prop :=
  ∀ (m : Masks) (flags : BitVec 8), m.valid = true →
    (flags &&& m.status ≠ 0#8 → classify m flags = { kind := .status }) ∧
    (flags &&& m.status = 0#8 → flags &&& m.errframe ≠ 0#8 → classify m flags = { kind := .error }) ∧
    (flags &&& m.status = 0#8 → flags &&& m.errframe = 0#8 → flags &&& m.rtr ≠ 0#8 →
      ((classify m flags).kind = .standardRTR ∨ (classify m flags).kind = .extendedRTR) ∧
      (classify m flags).fd = false ∧ (classify m flags).brs = false ∧ (classify m flags).esi = false) ∧
    (flags &&& m.status = 0#8 → flags &&& m.errframe = 0#8 → flags &&& m.rtr = 0#8 →
      (flags &&& m.fd ≠ 0#8 ∨ flags &&& m.brs ≠ 0#8 ∨ flags &&& m.esi ≠ 0#8) →
      (classify m flags).kind = .fdVariant ∧
      ((classify m flags).ext = true ↔ flags &&& m.extended ≠ 0#8) ∧
      ((classify m flags).fd = true ↔ flags &&& m.fd ≠ 0#8) ∧
      ((classify m flags).brs = true ↔ flags &&& m.brs ≠ 0#8) ∧
      ((classify m flags).esi = true ↔ flags &&& m.esi ≠ 0#8)) ∧
    classify m 0#8 = { kind := .standard } ∧
    classify m m.extended = { kind := .extended, ext := true }

/-- `amb` is 1 exactly when an RTR kind hides FD, BRS or ESI bits, for every mask layout (R124). -/
def Obligations.AmbMarksHiddenFdBits : Prop :=
  ∀ (m : Masks) (flags : BitVec 8), m.valid = true →
    ((classify m flags).amb = true ↔
      ((classify m flags).kind = .standardRTR ∨ (classify m flags).kind = .extendedRTR) ∧
        (flags &&& m.fd ≠ 0#8 ∨ flags &&& m.brs ≠ 0#8 ∨ flags &&& m.esi ≠ 0#8))

/-- The outcome table of R122, with the mask layout of D5 (PRESUMED, log entry 6): how many of the 256 words have each
kind, which are plain, and which have the empty bracket of R126; and the layout of R7 is one in which the rules read as
written. -/
def Obligations.OutcomeTableOfFlags : Prop :=
  flagWords.countP (kindOf · = .status) = 128 ∧ flagWords.countP (kindOf · = .error) = 64 ∧
  flagWords.countP (kindOf · = .standardRTR) = 16 ∧ flagWords.countP (kindOf · = .extendedRTR) = 16 ∧
  flagWords.countP (kindOf · = .standard) = 1 ∧ flagWords.countP (kindOf · = .extended) = 1 ∧
  flagWords.countP (kindOf · = .fdVariant) = 30 ∧ flagWords.countP (fun f => (classify Config.masks f).amb) = 28 ∧
  flagWords.filter (fun f => kindOf f = .standard ∨ kindOf f = .extended) = [0x00, 0x02] ∧
  flagWords.filter
      (fun f => classify Config.masks f = { kind := .fdVariant, ext := hasFlag f Config.masks.extended }) =
    [0x20, 0x22] ∧
  Config.masks.valid = true

/-! ## DLC table -/

/-- DLCL gives the table's length and writes nothing else (R140). -/
def Obligations.DlclGivesTheTableLength : Prop :=
  ∀ (dlc : BitVec 4) (s : State), ∃ n : BitVec 8,
    exec (.dlcl dlc) s = .next (answered s (.ok { length := n })) ∧ n.toNat = dlcLength dlc

/-- The table is strictly increasing, at most 64, and the identity exactly up to 8 (R141, derived from R140). -/
def Obligations.DlcTableIsStrictlyIncreasing : Prop :=
  (∀ d d' : BitVec 4, d < d' → lengthFromDlc d < lengthFromDlc d') ∧
  (∀ d : BitVec 4, (lengthFromDlc d).toNat ≤ 64 ∧ d.toNat ≤ (lengthFromDlc d).toNat ∧
    ((lengthFromDlc d).toNat = d.toNat ↔ d.toNat ≤ 8))

/-! ## Timestamps -/

/-- TSCMB: the exact sum modulo 2^64, and whether it fits; nothing else is written (R152). -/
def Obligations.TscmbCombinesExactly : Prop :=
  ∀ (micros millis overflow : BitVec 32) (s : State), ∃ (ts : BitVec 64) (wrap : Bool),
    exec (.tscmb micros millis overflow) s = .next (answered s (.ok { ts := ts, wrap := wrap })) ∧
    ts.toNat = exactSum micros millis overflow % 2 ^ 64 ∧
    (wrap = true ↔ 2 ^ 64 ≤ exactSum micros millis overflow) ∧ exactSum micros millis overflow < 2 ^ 74

/-- Exactly when TSCMB wraps: the three rows of R154 (derived from R152). -/
def Obligations.TscmbWrapBoundary : Prop :=
  ∀ (micros millis overflow : BitVec 32) (s : State), ∃ (ts : BitVec 64) (wrap : Bool),
    exec (.tscmb micros millis overflow) s = .next (answered s (.ok { ts := ts, wrap := wrap })) ∧
    (overflow.toNat ≤ 4294966 → wrap = false) ∧
    (overflow.toNat = 4294967 → (wrap = false ↔ micros.toNat + 1000 * millis.toNat < 1271310319616)) ∧
    (4294968 ≤ overflow.toNat → wrap = true)

/-- A raw triple with `micros` at most 999 and no wrap is recovered from the combined timestamp (R155, derived from
R152). -/
def Obligations.RawTimestampIsRecoverable : Prop :=
  ∀ (micros millis overflow : BitVec 32) (ts : BitVec 64) (s : State), micros.toNat ≤ 999 →
    exec (.tscmb micros millis overflow) s = .next (answered s (.ok { ts := ts, wrap := false })) →
    micros.toNat = ts.toNat % 1000 ∧ millis.toNat = ts.toNat / 1000 % 2 ^ 32 ∧
      overflow.toNat = ts.toNat / (1000 * 2 ^ 32)

/-- TSFMT rounds to one decimal under whichever value `FMT_ROUND` has; it writes the three time fields only (R156). -/
def Obligations.TsfmtRoundsToOneDecimal : Prop :=
  ∀ (ts : BitVec 64) (s : State), ∃ r : Results,
    exec (.tsfmt ts) s = .next (answered s (.ok r)) ∧ TimeFields ts r ∧
    r = { msInt := r.msInt, msTenth := r.msTenth, timeTxt := r.timeTxt }

/-- The numbers and the text of TSFMT agree, the rounded value is within 50 microseconds, and TSFMT is monotone, under
whichever value `FMT_ROUND` has (R160, which the spec derives from R156). -/
def Obligations.TsfmtIsNearestAndMonotone : Prop :=
  ∀ (ts ts' : BitVec 64) (s : State), ∃ r r' : Results,
    exec (.tsfmt ts) s = .next (answered s (.ok r)) ∧ exec (.tsfmt ts') s = .next (answered s (.ok r')) ∧
    r.timeTxt = dec r.msInt.toNat ++ ascii ['.'] ++ dec r.msTenth.toNat ∧
    10 * r.msInt.toNat + r.msTenth.toNat = tenthsOf Config.fmtRound ts.toNat ∧
    100 * (10 * r.msInt.toNat + r.msTenth.toNat) ≤ ts.toNat + 50 ∧
    ts.toNat ≤ 100 * (10 * r.msInt.toNat + r.msTenth.toNat) + 50 ∧
    (ts.toNat ≤ ts'.toNat →
      10 * r.msInt.toNat + r.msTenth.toNat ≤ 10 * r'.msInt.toNat + r'.msTenth.toNat)

/-- The two rounding rules give different results exactly at `ts mod 200 = 50`, and there `half_up` gives one tenth
more (R159). -/
def Obligations.RoundingModesDifferOnlyAtEvenTies : Prop :=
  ∀ ts : Nat,
    (tenthsOf .halfUp ts ≠ tenthsOf .halfEven ts ↔ ts % 200 = 50) ∧
    (ts % 200 = 50 → tenthsOf .halfUp ts = ts / 100 + 1 ∧ tenthsOf .halfEven ts = ts / 100)

/-! ## Frames -/

/-- `MemRead(addr, 1)` is the byte the host placed at that index, and has no meaning at or above `bufn` (R41). -/
def Obligations.MemReadGivesTheHostsByte : Prop :=
  ∀ (bytes : List Byte) (bufn a : Nat) (s : State) (r : Request) (rest : List Request),
    s.queue = r :: rest → r.pbuf = Memory.ofBytes bytes → bufn = bytes.length →
    memRead bufn a s = bytes[a]?

/-- FRN renders every frame that passes its checks, from the first `length` bytes of the buffer (R172 to R176). -/
def Obligations.FrnRendersTheFrame : Prop :=
  ∀ (id : BitVec 32) (flags length : BitVec 8) (ts : BitVec 64) (bufn : BitVec 7) (s : State),
    length.toNat ≤ 64 → bufn.toNat ≤ 64 → length.toNat ≤ bufn.toNat →
    ∃ r, exec (.frn id flags length ts bufn) s = .next (answered s (.ok r)) ∧
      RendersFrame id flags length.toNat ts false s r

/-- FRC builds the frame of a classic record with TSCMB's timestamp and renders it, passing `wrap` on (R180). -/
def Obligations.FrcRendersTheClassicRecord : Prop :=
  ∀ (id : BitVec 32) (flags len : BitVec 8) (micros millis overflow : BitVec 32) (bufn : BitVec 7) (s : State),
    len.toNat ≤ 8 → bufn.toNat ≤ 64 → len.toNat ≤ bufn.toNat →
    ∃ (r : Results) (ts : BitVec 64) (wrap : Bool),
      exec (.frc id flags len micros millis overflow bufn) s = .next (answered s (.ok r)) ∧
      ts.toNat = exactSum micros millis overflow % 2 ^ 64 ∧
      (wrap = true ↔ 2 ^ 64 ≤ exactSum micros millis overflow) ∧ RendersFrame id flags len.toNat ts wrap s r

/-- FRF builds the frame of an FD record with the table's length and renders it (R182). -/
def Obligations.FrfRendersTheFdRecord : Prop :=
  ∀ (id : BitVec 32) (flags : BitVec 8) (dlc : BitVec 4) (ts : BitVec 64) (bufn : BitVec 7) (s : State),
    bufn.toNat ≤ 64 → dlcLength dlc ≤ bufn.toNat →
    ∃ r, exec (.frf id flags dlc ts bufn) s = .next (answered s (.ok r)) ∧
      RendersFrame id flags (dlcLength dlc) ts false s r

/-- The checks of the three frame operations, whatever the flags are: the first that fails, in the order of R208, is the
one reported (R171, R180, R182, R202 to R204); FRF never raises LEN_RANGE. -/
def Obligations.FrameChecksAreReportedInOrder : Prop :=
  ∀ (id : BitVec 32) (flags length : BitVec 8) (dlc : BitVec 4) (ts : BitVec 64) (micros millis overflow : BitVec 32)
    (bufn : BitVec 7) (s : State),
    (64 < bufn.toNat →
      exec (.frn id flags length ts bufn) s = .next (answered s (.exception .bufnRange)) ∧
      exec (.frc id flags length micros millis overflow bufn) s = .next (answered s (.exception .bufnRange)) ∧
      exec (.frf id flags dlc ts bufn) s = .next (answered s (.exception .bufnRange))) ∧
    (bufn.toNat ≤ 64 → 64 < length.toNat →
      exec (.frn id flags length ts bufn) s = .next (answered s (.exception .lenRange))) ∧
    (bufn.toNat ≤ 64 → 8 < length.toNat →
      exec (.frc id flags length micros millis overflow bufn) s = .next (answered s (.exception .lenRange))) ∧
    (bufn.toNat ≤ 64 → length.toNat ≤ 64 → bufn.toNat < length.toNat →
      exec (.frn id flags length ts bufn) s = .next (answered s (.exception .lenGtBuf))) ∧
    (bufn.toNat ≤ 64 → length.toNat ≤ 8 → bufn.toNat < length.toNat →
      exec (.frc id flags length micros millis overflow bufn) s = .next (answered s (.exception .lenGtBuf))) ∧
    (bufn.toNat ≤ 64 → bufn.toNat < dlcLength dlc →
      exec (.frf id flags dlc ts bufn) s = .next (answered s (.exception .lenGtBuf))) ∧
    exec (.frf id flags dlc ts bufn) s ≠ .next (answered s (.exception .lenRange))

/-- The response of a frame operation depends on no byte at an index at or above its length, and on no byte at all when
RTR is set (R186, which the spec derives from R176 and R43). -/
def Obligations.NoByteBeyondLengthIsShown : Prop :=
  ∀ (id : BitVec 32) (flags length : BitVec 8) (dlc : BitVec 4) (ts : BitVec 64) (micros millis overflow : BitVec 32)
    (bufn : BitVec 7) (s s' : State),
    ((flags &&& Config.masks.rtr ≠ 0#8 ∨ ∀ a, a < length.toNat → s.bufByte a = s'.bufByte a) →
      (∃ x, exec (.frn id flags length ts bufn) s = .next (answered s x) ∧
        exec (.frn id flags length ts bufn) s' = .next (answered s' x)) ∧
      (∃ x, exec (.frc id flags length micros millis overflow bufn) s = .next (answered s x) ∧
        exec (.frc id flags length micros millis overflow bufn) s' = .next (answered s' x))) ∧
    ((flags &&& Config.masks.rtr ≠ 0#8 ∨ ∀ a, a < dlcLength dlc → s.bufByte a = s'.bufByte a) →
      ∃ x, exec (.frf id flags dlc ts bufn) s = .next (answered s x) ∧
        exec (.frf id flags dlc ts bufn) s' = .next (answered s' x))

/-- FRF is FRN with the table's length, also when it raises (R184). -/
def Obligations.FrfIsFrnWithTheTableLength : Prop :=
  ∀ (id : BitVec 32) (flags length : BitVec 8) (dlc : BitVec 4) (ts : BitVec 64) (bufn : BitVec 7) (s : State),
    exec (.dlcl dlc) s = .next (answered s (.ok { length := length })) →
    exec (.frf id flags dlc ts bufn) s = exec (.frn id flags length ts bufn) s

/-- FRC is FRN with TSCMB's timestamp, but for `wrap`, which is TSCMB's (R184). -/
def Obligations.FrcIsFrnWithTheCombinedTimestamp : Prop :=
  ∀ (id : BitVec 32) (flags len : BitVec 8) (micros millis overflow : BitVec 32) (bufn : BitVec 7) (ts : BitVec 64)
    (wrap : Bool) (r : Results) (s : State), len.toNat ≤ 8 →
    exec (.tscmb micros millis overflow) s = .next (answered s (.ok { ts := ts, wrap := wrap })) →
    exec (.frn id flags len ts bufn) s = .next (answered s (.ok r)) →
    exec (.frc id flags len micros millis overflow bufn) s = .next (answered s (.ok { r with wrap := wrap }))

/-- A frame's Category fields and type label are those of MCLS on its flags, and its time fields those of TSFMT on its
timestamp (R184, R173, R175). -/
def Obligations.FrameAgreesWithMclsAndTsfmt : Prop :=
  ∀ (id : BitVec 32) (flags length : BitVec 8) (ts : BitVec 64) (bufn : BitVec 7) (r rm rt : Results) (s : State),
    exec (.frn id flags length ts bufn) s = .next (answered s (.ok r)) →
    exec (.mcls flags) s = .next (answered s (.ok rm)) → exec (.tsfmt ts) s = .next (answered s (.ok rt)) →
    (r.kind = rm.kind ∧ r.ext = rm.ext ∧ r.fd = rm.fd ∧ r.brs = rm.brs ∧ r.esi = rm.esi ∧ r.amb = rm.amb ∧
      r.typeTxt = rm.typeTxt) ∧
    r.msInt = rt.msInt ∧ r.msTenth = rt.msTenth ∧ r.timeTxt = rt.timeTxt

/-! ## Exceptions and the response record -/

/-- An operation delivers an exception exactly when, and exactly the one that, R201 with the order of R208 names for its
operands. -/
def Obligations.ExceptionsAreExactlyTheListedOnes : Prop :=
  ∀ (i : Instr) (s : State) (c : Cause),
    exec i s = .next (answered s (.exception c)) ↔ i.cause? = some c

/-- What raising does (R209, with the codes of R200 and R201): it delivers the response with its status and cause, every
other field 0 and every text empty, and nothing else happens; on an OK response the status and the cause are 0 and the
results stand. -/
def Obligations.RaisingDeliversStatusAndCauseOnly : Prop :=
  (∀ (c : Cause) (s : State), raise c s = .next (answered s (.exception c))) ∧
  (Response.exception .lenGtBuf).record = { status := 1, cause := 1, results := {} } ∧
  (Response.exception .lenRange).record = { status := 1, cause := 2, results := {} } ∧
  (Response.exception .bufnRange).record = { status := 1, cause := 3, results := {} } ∧
  (Response.exception .hencRange).record = { status := 1, cause := 4, results := {} } ∧
  (Response.exception .opReserved).record = { status := 2, cause := 5, results := {} } ∧
  (∀ r, (Response.ok r).record = { status := 0, cause := 0, results := r }) ∧
  ({} : Results).texts = [[], [], [], [], [], []] ∧ ({} : Results).kind.code = 0

/-! ## The invariant -/

/-- Every step keeps the invariant: every response ever delivered is within the bounds of R71 and R13 and has consistent
fields, and every queued buffer is canonical. -/
def Obligations.StepKeepsTheInvariant : Prop :=
  ∀ s t : State, s.Inv → step s = .next t → t.Inv

/-- The invariant holds at reset. -/
def Obligations.ResetMeetsTheInvariant : Prop :=
  State.reset.Inv

/-- What comes from outside keeps the invariant: presenting a request with a canonical buffer, and a reset during a
transaction, which drops the request at the port and leaves those behind it (the model's choice, log entry 9); and a
buffer made of at most 64 bytes is canonical. -/
def Obligations.PresentingKeepsTheInvariant : Prop :=
  (∀ (s : State) (r : Request), s.Inv → r.pbuf.wf = true → (s.present r).Inv ∧ s.resetInProgress.Inv) ∧
  (∀ bytes : List Byte, bytes.length ≤ 64 → (Memory.ofBytes bytes).wf = true)

/-! ## The parameters as arguments of the step -/

/-- The machine of this package is the instance with the parameters of Config, in every state (R232): they are arguments
of the step, and nothing in State holds them. That `step` runs this one instance is the model's choice (log
entry 19). -/
def Obligations.StepIsTheStepOfOneInstance : Prop :=
  (∀ s : State, step s = stepWith Config.params s) ∧
  (∀ (i : Instr) (s : State), exec i s = execWith Config.params i s) ∧
  Config.params = { masks := Config.masks, fmtRound := Config.fmtRound }

/-- In every instance the step performs the operation that the word at the port decodes to, or raises OP_RESERVED. -/
def Obligations.EveryInstanceRunsTheDecodedOperation : Prop :=
  ∀ (p : Params) (s : State) (r : Request) (rest : List Request), s.queue = r :: rest →
    (∀ i, decode r.req = .ok i →
      ∃ x, execWith p i s = .next (answered s x) ∧ stepWith p s = .next (performed s rest x)) ∧
    ((r.req.toNat % 16 = 0 ∨ 11 ≤ r.req.toNat % 16) →
      stepWith p s = .next (performed s rest (.exception .opReserved)))

/-- In every instance the response is a function of the parameters, REQ, `bufn` and the bytes at indices `0 .. bufn-1`
alone (R36, which the spec derives from R20 to R22): with equal parameters, whatever they are. -/
def Obligations.EqualTransactionsUnderEqualParameters : Prop :=
  ∀ (p : Params) (s s' : State) (r r' : Request) (rest rest' : List Request),
    s.queue = r :: rest → s'.queue = r' :: rest' → r.req = r'.req →
    (∀ i n, decode r.req = .ok i → i.bufn? = some n → n ≤ 64 → ∀ a, a < n → s.bufByte a = s'.bufByte a) →
    ∃ x, stepWith p s = .next (performed s rest x) ∧ stepWith p s' = .next (performed s' rest' x)

/-- MCLS classifies and labels under every mask layout and either rounding rule (R121, R8). -/
def Obligations.MclsClassifiesUnderEveryLayout : Prop :=
  ∀ (p : Params) (flags : BitVec 8) (s : State), ∃ r : Results,
    execWith p (.mcls flags) s = .next (answered s (.ok r)) ∧ CategoryFieldsIn p.masks flags r ∧ LabelField r ∧
    r = { kind := r.kind, ext := r.ext, fd := r.fd, brs := r.brs, esi := r.esi, amb := r.amb, typeTxt := r.typeTxt }

/-- TSFMT rounds by the rounding rule that is its argument (R156, R159). -/
def Obligations.TsfmtRoundsByItsParameter : Prop :=
  ∀ (p : Params) (ts : BitVec 64) (s : State), ∃ r : Results,
    execWith p (.tsfmt ts) s = .next (answered s (.ok r)) ∧ TimeFieldsIn p.fmtRound ts r ∧
    r = { msInt := r.msInt, msTenth := r.msTenth, timeTxt := r.timeTxt }

/-- The three frame operations render every frame that passes its checks, under every mask layout and either rounding
rule (R172 to R176, R180, R182). -/
def Obligations.FramesRenderUnderEveryParameters : Prop :=
  ∀ (p : Params) (id : BitVec 32) (flags length : BitVec 8) (dlc : BitVec 4) (ts : BitVec 64)
    (micros millis overflow : BitVec 32) (bufn : BitVec 7) (s : State), bufn.toNat ≤ 64 →
    (length.toNat ≤ 64 → length.toNat ≤ bufn.toNat →
      ∃ r, execWith p (.frn id flags length ts bufn) s = .next (answered s (.ok r)) ∧
        RendersFrameIn p id flags length.toNat ts false s r) ∧
    (length.toNat ≤ 8 → length.toNat ≤ bufn.toNat →
      ∃ (r : Results) (t : BitVec 64) (wrap : Bool),
        execWith p (.frc id flags length micros millis overflow bufn) s = .next (answered s (.ok r)) ∧
        t.toNat = exactSum micros millis overflow % 2 ^ 64 ∧
        (wrap = true ↔ 2 ^ 64 ≤ exactSum micros millis overflow) ∧
        RendersFrameIn p id flags length.toNat t wrap s r) ∧
    (dlcLength dlc ≤ bufn.toNat →
      ∃ r, execWith p (.frf id flags dlc ts bufn) s = .next (answered s (.ok r)) ∧
        RendersFrameIn p id flags (dlcLength dlc) ts false s r)

/-- What the parameters can change: nothing of the operations that read none, only the mask layout matters to MCLS and
only the rounding rule to TSFMT; and no parameter decides whether, or which, exception an operation raises. -/
def Obligations.ParametersMatterOnlyWhereTheyAreNamed : Prop :=
  ∀ (p p' : Params) (s : State),
    (∀ handle, execWith p (.hdec handle) s = execWith p' (.hdec handle) s) ∧
    (∀ wide devtype chan, execWith p (.henc wide devtype chan) s = execWith p' (.henc wide devtype chan) s) ∧
    (∀ handle isfd, execWith p (.hfmt handle isfd) s = execWith p' (.hfmt handle isfd) s) ∧
    (∀ dlc, execWith p (.dlcl dlc) s = execWith p' (.dlcl dlc) s) ∧
    (∀ micros millis overflow,
      execWith p (.tscmb micros millis overflow) s = execWith p' (.tscmb micros millis overflow) s) ∧
    (∀ flags, p.masks = p'.masks → execWith p (.mcls flags) s = execWith p' (.mcls flags) s) ∧
    (∀ ts, p.fmtRound = p'.fmtRound → execWith p (.tsfmt ts) s = execWith p' (.tsfmt ts) s) ∧
    (∀ i c, execWith p i s = .next (answered s (.exception c)) ↔ i.cause? = some c)

/-- Every step of every instance keeps the invariant. -/
def Obligations.EveryInstanceKeepsTheInvariant : Prop :=
  ∀ (p : Params) (s t : State), s.Inv → stepWith p s = .next t → t.Inv
end

