-- ==== Sys2Proof/Laws/Encoding.lean ====
section
/-! SUPPORT. Fields of request words and words with placed fields. -/

namespace Sys2Proof

/-- A bit of a placed field. -/
theorem getLsbD_place (lo : Nat) {w : Nat} (v : BitVec w) (k : Nat) :
    (place lo v).getLsbD k = (decide (k < 160) && !decide (k < lo) && v.getLsbD (k - lo)) := by
  simp only [place, BitVec.getLsbD_shiftLeft, BitVec.getLsbD_setWidth]
  by_cases h : k < 160 <;> by_cases h' : k < lo <;> simp [h, h']
  intro _
  omega

/-- A bit of a field. -/
theorem getElem_field (req : ReqWord) (lo w k : Nat) (h : k < w) : (field req lo w)[k] = req.getLsbD (lo + k) := by
  simp [field]

/-- A field of a union of placed fields. -/
@[simp] theorem field_or (x y : ReqWord) (lo w : Nat) : field (x ||| y) lo w = field x lo w ||| field y lo w := by
  ext k hk
  simp [getElem_field]

/-- The field at the place where `v` was put is `v`. -/
@[simp] theorem field_place_same (lo w : Nat) (v : BitVec w) (h : lo + w ≤ 160) : field (place lo v) lo w = v := by
  ext k hk
  have h1 : lo + k < 160 := by omega
  rw [getElem_field, getLsbD_place]
  simp [h1, hk]

/-- A field above the place where `v` was put is 0. -/
@[simp] theorem field_place_above (lo lo' w : Nat) {w' : Nat} (v : BitVec w') (h : lo' + w' ≤ lo) :
    field (place lo' v) lo w = 0#w := by
  ext k hk
  have h1 : v.getLsbD (lo + k - lo') = false := BitVec.getLsbD_of_ge _ _ (by omega)
  simp [getElem_field, getLsbD_place, h1]

/-- A field below the place where `v` was put is 0. -/
@[simp] theorem field_place_below (lo lo' w : Nat) {w' : Nat} (v : BitVec w') (h : lo + w ≤ lo') :
    field (place lo' v) lo w = 0#w := by
  ext k hk
  have h1 : lo + k < lo' := by omega
  simp [getElem_field, getLsbD_place, h1]

/-- One bit of a union of placed fields. -/
@[simp] theorem bit_or (x y : ReqWord) (i : Nat) : bit (x ||| y) i = (bit x i || bit y i) := by
  simp [bit]

/-- A placed bit. -/
@[simp] theorem bit_place (i : Nat) {w : Nat} (lo : Nat) (v : BitVec w) (h : i < 160) :
    bit (place lo v) i = (!decide (i < lo) && v.getLsbD (i - lo)) := by
  rw [bit, getLsbD_place]
  simp [h]

/-- A field put back where it came from: the bits of the word at that place, and 0 elsewhere. -/
theorem getLsbD_place_field (req : ReqWord) (lo w k : Nat) (h : lo + w ≤ 160) :
    (place lo (field req lo w)).getLsbD k = (decide (lo ≤ k ∧ k < lo + w) && req.getLsbD k) := by
  rw [getLsbD_place]
  by_cases h1 : lo ≤ k
  · have hf : (field req lo w).getLsbD (k - lo) = (decide (k - lo < w) && req.getLsbD k) := by
      simp [field, show lo + (k - lo) = k by omega]
    rw [hf]
    by_cases h2 : k < lo + w
    · simp [h1, h2, show k < 160 by omega, show k - lo < w by omega]
    · simp [h2, show ¬ k - lo < w by omega]
  · simp [h1, show k < lo by omega]

/-- A bit put back where it came from. -/
theorem getLsbD_place_bit (req : ReqWord) (lo k : Nat) (h : lo < 160) :
    (place lo (BitVec.ofBool (bit req lo))).getLsbD k = (decide (lo ≤ k ∧ k < lo + 1) && req.getLsbD k) := by
  rw [getLsbD_place]
  by_cases h1 : k = lo
  · subst h1
    simp [h, bit]
  · by_cases h2 : k < lo
    · simp [h2]
    · have hf : (BitVec.ofBool (bit req lo)).getLsbD (k - lo) = false := BitVec.getLsbD_of_ge _ _ (by omega)
      simp [hf]
      omega

end Sys2Proof
end

