-- ==== Sys2Proof/Laws/State.lean ====
section
/-! SUPPORT. One lemma per field per update of State, each true by `rfl`, and one per parameter of
the instance of Config. -/

namespace Sys2Proof

@[simp] theorem Config.params_masks : Config.params.masks = Config.masks := rfl
@[simp] theorem Config.params_fmtRound : Config.params.fmtRound = Config.fmtRound := rfl

end Sys2Proof

namespace Sys2Proof.Machine

namespace State

variable (s : State) (x : Response) (r : Request) (w : ReqWord)

@[simp] theorem deliver_queue : (s.deliver x).queue = s.queue := rfl
@[simp] theorem deliver_responses : (s.deliver x).responses = s.responses ++ [x] := rfl
@[simp] theorem deliver_serial : (s.deliver x).serial = s.serial := rfl
@[simp] theorem deliver_pbuf : (s.deliver x).pbuf = s.pbuf := rfl
@[simp] theorem deliver_bufByte (a : Nat) : (s.deliver x).bufByte a = s.bufByte a := rfl

@[simp] theorem retire_queue : s.retire.queue = s.queue.tail := rfl
@[simp] theorem retire_responses : s.retire.responses = s.responses := rfl
@[simp] theorem retire_serial : s.retire.serial = s.serial + 1 := rfl

@[simp] theorem present_queue : (s.present r).queue = s.queue ++ [r] := rfl
@[simp] theorem present_responses : (s.present r).responses = s.responses := rfl
@[simp] theorem present_serial : (s.present r).serial = s.serial := rfl

@[simp] theorem presentWord_queue : (s.presentWord w).queue = { req := w, pbuf := s.pbuf } :: s.queue.tail := rfl
@[simp] theorem presentWord_responses : (s.presentWord w).responses = s.responses := rfl
@[simp] theorem presentWord_serial : (s.presentWord w).serial = s.serial := rfl
@[simp] theorem presentWord_pbuf : (s.presentWord w).pbuf = s.pbuf := rfl
@[simp] theorem presentWord_bufByte (a : Nat) : (s.presentWord w).bufByte a = s.bufByte a := rfl

@[simp] theorem resetInProgress_queue : s.resetInProgress.queue = s.queue.tail := rfl
@[simp] theorem resetInProgress_responses : s.resetInProgress.responses = s.responses := rfl
@[simp] theorem resetInProgress_serial : s.resetInProgress.serial = s.serial := rfl

/-- The buffer at the port is the buffer of the request at the port. -/
theorem pbuf_of_queue {rest : List Request} (h : s.queue = r :: rest) : s.pbuf = r.pbuf := by simp [pbuf, h]

/-- A byte the host supplied is read as it is, whatever the free bytes are. -/
theorem bufByte_of_read {a : Nat} {b : Byte} (h : s.pbuf.read a = some b) : s.bufByte a = b := by simp [bufByte, h]

end State
end Sys2Proof.Machine
end

