-- ==== Sys2Proof/Laws/Operands.lean ====
section
/-! SUPPORT. What the payload buffer and its reads give. -/

namespace Sys2Proof

/-- A read of a buffer made from bytes: the byte at that place. -/
theorem Memory.read_ofBytesFrom (bytes : List Byte) (start a : Nat) :
    (Memory.ofBytesFrom start bytes).read a = if start ≤ a then bytes[a - start]? else none := by
  induction bytes generalizing start with
  | nil => simp [Memory.ofBytesFrom, Memory.read]
  | cons b rest ih =>
    have ih := ih (start + 1)
    simp only [Memory.read] at ih
    simp only [Memory.ofBytesFrom, Memory.read, List.find?_cons]
    by_cases h : start = a
    · simp [h]
    · have hb : (start == a) = false := by simpa using h
      simp only [hb, ih]
      by_cases h' : start ≤ a
      · have h1 : start + 1 ≤ a := by omega
        have h2 : a - start = (a - (start + 1)) + 1 := by omega
        simp [h', h1, h2]
      · have h1 : ¬ start + 1 ≤ a := by omega
        simp [h', h1]

/-- The buffer made from bytes holds the byte `a` of them at index `a`. -/
@[simp] theorem Memory.read_ofBytes (bytes : List Byte) (a : Nat) : (Memory.ofBytes bytes).read a = bytes[a]? := by
  simp [Memory.ofBytes, Memory.read_ofBytesFrom]

theorem Memory.rising_ofBytesFrom (bytes : List Byte) (start : Nat) :
    (Memory.ofBytesFrom start bytes).rising = true := by
  induction bytes generalizing start with
  | nil => rfl
  | cons b rest ih =>
    cases rest with
    | nil => rfl
    | cons c rest => simpa [Memory.ofBytesFrom, Memory.rising] using ih (start + 1)

theorem Memory.index_of_mem_ofBytesFrom {bytes : List Byte} {start : Nat} {c : Host.Cell}
    (h : c ∈ Memory.ofBytesFrom start bytes) : c.1 < start + bytes.length := by
  induction bytes generalizing start with
  | nil => simp [Memory.ofBytesFrom] at h
  | cons b rest ih =>
    simp only [Memory.ofBytesFrom, List.mem_cons] at h
    obtain rfl | h := h
    · simp
    · have := ih h
      simp
      omega

namespace Machine

/-- `MemRead` inside the buffer. -/
theorem memRead_of_lt {bufn a : Nat} (s : State) (h : a < bufn) : memRead bufn a s = some (s.bufByte a) := by
  simp [memRead, h]

/-- `MemRead` outside the buffer has no meaning. -/
theorem memRead_of_ge {bufn a : Nat} (s : State) (h : bufn ≤ a) : memRead bufn a s = none := by
  simp [memRead, h]

/-- Reads inside the buffer give its bytes in increasing index order. -/
theorem readBytes_of_le {bufn n i : Nat} (s : State) (h : i + n ≤ bufn) :
    readBytes bufn s i n = some ((List.range' i n).map s.bufByte) := by
  induction n generalizing i with
  | zero => rfl
  | succ n ih => simp [readBytes, memRead_of_lt s (show i < bufn by omega), ih (show i + 1 + n ≤ bufn by omega), List.range'_succ]

/-- The payload of a checked frame: the first `length` bytes of the buffer. -/
theorem payload_of_le {bufn length : Nat} (s : State) (h : length ≤ bufn) :
    payload bufn length s = some ((List.range length).map s.bufByte) := by
  simp [payload, readBytes_of_le s (show 0 + length ≤ bufn by omega), List.range_eq_range']

end Machine
end Sys2Proof
end

