-- ==== Sys2Proof/Laws/Text.lean ====
section
/-! SUPPORT. What the text primitives produce: the digits of `digits base n`, their value, their number and their
characters. -/

namespace Sys2Proof.Machine

/-- The number that digits in `base` stand for, continued from `n`. -/
def readDigits (base n : Nat) (ds : List Nat) : Nat := ds.foldl (fun n d => n * base + d) n

theorem readDigits_append (base n : Nat) (ds es : List Nat) :
    readDigits base n (ds ++ es) = readDigits base (readDigits base n ds) es := by
  simp [readDigits]

/-- With enough fuel the digits put before `acc` are those of `n`: they read as `n`, each is below the base, the first
is not 0 unless `n` is 0, and there are `k` of them at most when `n < base ^ k`. -/
theorem digitsCore_spec (base : Nat) (hb : 2 ≤ base) : ∀ (fuel n : Nat) (acc : List Nat), n < fuel →
    ∃ d ds, digitsCore base fuel n acc = d :: ds ++ acc ∧ readDigits base 0 (d :: ds) = n ∧
      (∀ e ∈ d :: ds, e < base) ∧ (d = 0 → n = 0) ∧ (∀ k, 0 < k → n < base ^ k → ds.length + 1 ≤ k) ∧
      (∀ k, base ^ k ≤ n → k < ds.length + 1) := by
  intro fuel
  induction fuel with
  | zero => intro n acc h; omega
  | succ fuel ih =>
    intro n acc h
    by_cases hn : n < base
    · refine ⟨n, [], by simp [digitsCore, hn], by simp [readDigits], by simp [hn], id, fun k hk _ => by simp; omega, ?_⟩
      intro k hk
      by_contra hc
      have : base ^ 1 ≤ base ^ k := Nat.pow_le_pow_right (by omega) (by simp at hc; omega)
      simp only [Nat.pow_one] at this
      omega
    · have hq : n / base < fuel := by
        have := Nat.div_lt_self (n := n) (k := base) (by omega) (by omega)
        omega
      obtain ⟨d, ds, h1, h2, h3, h4, h5, h6⟩ := ih (n / base) (n % base :: acc) hq
      have hdm := Nat.div_add_mod n base
      have hpos : 0 < n / base := Nat.div_pos (by omega) (by omega)
      refine ⟨d, ds ++ [n % base], by simp [digitsCore, hn, h1], ?_, ?_, ?_, ?_, ?_⟩
      · rw [← List.cons_append, readDigits_append, h2]
        simp only [readDigits, List.foldl_cons, List.foldl_nil]
        rw [Nat.mul_comm]
        exact hdm
      · intro e he
        rw [← List.cons_append, List.mem_append, List.mem_singleton] at he
        obtain he | rfl := he
        · exact h3 e he
        · exact Nat.mod_lt n (by omega)
      · intro hd
        have := h4 hd
        omega
      · intro k hk hlt
        match k with
        | k + 1 =>
          have hk' : n / base < base ^ k := Nat.div_lt_of_lt_mul (by rwa [Nat.pow_succ, Nat.mul_comm] at hlt)
          have h0 : 0 < k := by
            rcases Nat.eq_zero_or_pos k with rfl | h
            · simp at hk'
              omega
            · exact h
          have := h5 k h0 hk'
          simp
          omega
      · intro k hk
        match k with
        | 0 => simp
        | k + 1 =>
          have := h6 k ((Nat.le_div_iff_mul_le (by omega)).2 (by rwa [Nat.pow_succ] at hk))
          simp
          omega

/-- `digits base n`, described: see `digitsCore_spec`. -/
theorem digits_spec (base : Nat) (hb : 2 ≤ base) (n : Nat) :
    ∃ d ds, digits base n = d :: ds ∧ readDigits base 0 (d :: ds) = n ∧ (∀ e ∈ d :: ds, e < base) ∧
      (d = 0 → n = 0) ∧ (∀ k, 0 < k → n < base ^ k → ds.length + 1 ≤ k) ∧
      (∀ k, base ^ k ≤ n → k < ds.length + 1) := by
  obtain ⟨d, ds, h, rest⟩ := digitsCore_spec base hb (n + 1) n [] (by omega)
  exact ⟨d, ds, by simpa [digits] using h, rest⟩

/-- The character of a decimal digit. -/
theorem digitChar_decimal {d : Nat} (h : d < 10) : (digitChar d).toNat = 0x30 + d := by
  simp [digitChar, h]
  omega

/-- The character of a hexadecimal digit above 9. -/
theorem digitChar_letter {d : Nat} (h : 10 ≤ d) (h' : d < 16) : (digitChar d).toNat = 0x37 + d := by
  have : ¬ d < 10 := by omega
  simp [digitChar, this]
  omega

/-- A decimal text of a number below `10 ^ k` has at most `k` characters. -/
theorem dec_length_le {n k : Nat} (hk : 0 < k) (h : n < 10 ^ k) : (dec n).length ≤ k := by
  obtain ⟨d, ds, hd, -, -, -, hlen, -⟩ := digits_spec 10 (by omega) n
  simpa [dec, hd] using hlen k hk h

/-- A decimal text holds decimal digit characters only. -/
theorem dec_chars {n : Nat} {c : Byte} (h : c ∈ dec n) : 0x30 ≤ c.toNat ∧ c.toNat ≤ 0x39 := by
  obtain ⟨d, ds, hd, -, hlt, -, -, -⟩ := digits_spec 10 (by omega) n
  simp only [dec, hd, List.mem_map] at h
  obtain ⟨e, he, rfl⟩ := h
  have := hlt e he
  rw [digitChar_decimal this]
  omega

/-- A hexadecimal text of a number below `16 ^ k` has at most `k` characters, if its width is at most `k`. -/
theorem hex_length_le {width n k : Nat} (hk : 0 < k) (hw : width ≤ k) (h : n < 16 ^ k) : (hex width n).length ≤ k := by
  obtain ⟨d, ds, hd, -, -, -, hlen, -⟩ := digits_spec 16 (by omega) n
  have := hlen k hk h
  simp [hex, hd]
  omega

/-- A hexadecimal text holds uppercase hexadecimal digit characters only. -/
theorem hex_chars {width n : Nat} {c : Byte} (h : c ∈ hex width n) :
    (0x30 ≤ c.toNat ∧ c.toNat ≤ 0x39) ∨ (0x41 ≤ c.toNat ∧ c.toNat ≤ 0x46) := by
  obtain ⟨d, ds, hd, -, hlt, -, -, -⟩ := digits_spec 16 (by omega) n
  have key : ∀ e, e < 16 → (0x30 ≤ (digitChar e).toNat ∧ (digitChar e).toNat ≤ 0x39) ∨
      (0x41 ≤ (digitChar e).toNat ∧ (digitChar e).toNat ≤ 0x46) := by
    intro e he
    by_cases h10 : e < 10
    · rw [digitChar_decimal h10]; omega
    · rw [digitChar_letter (by omega) he]; omega
  simp only [hex, hd, List.mem_append, List.mem_replicate, List.mem_map] at h
  obtain ⟨-, rfl⟩ | ⟨e, he, rfl⟩ := h
  · exact key 0 (by omega)
  · exact key e (hlt e he)

end Sys2Proof.Machine
end

