-- ==== Sys2Proof/Laws/Frame.lean ====
section
/-! SUPPORT. What the shared operation of the frame formatter can do, once. -/

namespace Sys2Proof.Machine

/-- The checks pass exactly when all three conditions hold. -/
theorem checkFrame_eq_none {maxLength length bufn : Nat} :
    checkFrame maxLength length bufn = none ↔ bufn ≤ 64 ∧ length ≤ maxLength ∧ length ≤ bufn := by
  simp only [checkFrame, Config.pbufCap]
  by_cases h1 : bufn > 64
  · simp [h1]
  by_cases h2 : length > maxLength
  · simp [h1, h2]
  by_cases h3 : length > bufn
  · simp [h1, h2, h3]
  · simp [h1, h2, h3]; omega

/-- The payload bytes of a frame as text: the bytes in order, one space between two. -/
theorem bytesText_eq (bytes : List Byte) :
    bytesText bytes = List.intercalate (ascii [' ']) (bytes.map fun b => hex 2 b.toNat) := by
  induction bytes with
  | nil => rfl
  | cons b rest ih =>
    cases rest with
    | nil => simp [bytesText, List.intercalate]
    | cons c rest => simp_all [bytesText, List.intercalate]

/-- The number of characters of a data label with bytes (R176). -/
theorem bytesText_length_le (bytes : List Byte) : (bytesText bytes).length ≤ 3 * bytes.length - 1 := by
  induction bytes with
  | nil => simp [bytesText]
  | cons b rest ih =>
    have hb : (hex 2 b.toNat).length ≤ 2 := hex_length_le (by omega) (by omega) (by have := b.isLt; omega)
    cases rest with
    | nil => simpa [bytesText] using hb
    | cons c rest =>
      simp only [bytesText, List.length_append, List.length_cons, ascii, List.map_cons, List.map_nil, List.length_nil] at ih ⊢
      omega

/-- The data label of a checked frame. -/
theorem dataLabel_of_le (m : Masks) (flags : BitVec 8) {length bufn : Nat} (s : State) (h : length ≤ bufn) :
    dataLabel m flags length bufn s =
      some (if hasFlag flags m.rtr then remoteRequest else bytesText ((List.range length).map s.bufByte)) := by
  simp only [dataLabel, payload_of_le s h]
  split_ifs <;> rfl

/-- The results that rendering a checked frame writes. -/
def frameResults (p : Params) (id : BitVec 32) (flags length : BitVec 8) (ts : BitVec 64) (wrap : Bool) (s : State) :
    Results :=
  Results.withTime p.fmtRound
    (Results.withCategory p.masks
      { length := length
        ts := ts
        wrap := wrap
        idTxt := idLabel p.masks flags id
        lenTxt := dec length.toNat
        dataTxt :=
          if hasFlag flags p.masks.rtr then remoteRequest
          else bytesText ((List.range length.toNat).map s.bufByte) } flags) ts

/-- All that a frame operation can do: it raises the first failed check, or it completes with the rendered frame. It
never stops. -/
theorem checkAndRender_cases (p : Params) (maxLength : Nat) (id : BitVec 32) (flags length : BitVec 8) (ts : BitVec 64)
    (bufn : BitVec 7) (wrap : Bool) (s : State) :
    (∃ c, checkFrame maxLength length.toNat bufn.toNat = some c ∧
      checkAndRender p maxLength id flags length ts bufn wrap s = .next (s.deliver (.exception c))) ∨
    (checkFrame maxLength length.toNat bufn.toNat = none ∧
      checkAndRender p maxLength id flags length ts bufn wrap s =
        .next (s.deliver (.ok (frameResults p id flags length ts wrap s)))) := by
  cases hc : checkFrame maxLength length.toNat bufn.toNat with
  | some c => exact .inl ⟨c, rfl, by simp [checkAndRender, hc, raise]⟩
  | none =>
    have h := (checkFrame_eq_none.1 hc).2.2
    exact .inr ⟨rfl, by
      simp only [checkAndRender, hc, renderFrame, dataLabel_of_le p.masks flags s h]
      rfl⟩

/-- The rendered frame depends on the first `length` bytes of the buffer, and on none when RTR is set. -/
theorem frameResults_congr (p : Params) (id : BitVec 32) (flags length : BitVec 8) (ts : BitVec 64) (wrap : Bool) {s s' : State}
    (h : hasFlag flags p.masks.rtr = true ∨ ∀ a, a < length.toNat → s.bufByte a = s'.bufByte a) :
    frameResults p id flags length ts wrap s = frameResults p id flags length ts wrap s' := by
  obtain h | h := h
  · simp [frameResults, h]
  · have hb : (List.range length.toNat).map s.bufByte = (List.range length.toNat).map s'.bufByte :=
      List.map_congr_left fun a ha => h a (List.mem_range.1 ha)
    simp [frameResults, hb]

/-- Two states whose buffers agree below the length of the frame get the same response from a frame operation. -/
theorem checkAndRender_congr (p : Params) (maxLength : Nat) (id : BitVec 32) (flags length : BitVec 8) (ts : BitVec 64)
    (bufn : BitVec 7) (wrap : Bool) {s s' : State}
    (h : hasFlag flags p.masks.rtr = true ∨
      ∀ a, a < length.toNat → length.toNat ≤ bufn.toNat → bufn.toNat ≤ 64 → s.bufByte a = s'.bufByte a) :
    ∃ x, checkAndRender p maxLength id flags length ts bufn wrap s = .next (s.deliver x) ∧
      checkAndRender p maxLength id flags length ts bufn wrap s' = .next (s'.deliver x) := by
  obtain ⟨c, hc, hs⟩ | ⟨hc, hs⟩ := checkAndRender_cases p maxLength id flags length ts bufn wrap s
  · obtain ⟨c', hc', hs'⟩ | ⟨hc', hs'⟩ := checkAndRender_cases p maxLength id flags length ts bufn wrap s'
    · rw [hc] at hc'
      cases hc'
      exact ⟨_, hs, hs'⟩
    · rw [hc] at hc'
      cases hc'
  · obtain ⟨c', hc', hs'⟩ | ⟨hc', hs'⟩ := checkAndRender_cases p maxLength id flags length ts bufn wrap s'
    · rw [hc] at hc'
      cases hc'
    · obtain ⟨hcap, -, hle⟩ := checkFrame_eq_none.1 hc
      rw [frameResults_congr p id flags length ts wrap (h.imp_right fun h a ha => h a ha hle hcap)] at hs
      exact ⟨_, hs, hs'⟩

end Sys2Proof.Machine
end

