-- ==== Sys2Proof/Laws/PerInstr.lean ====
section
/-! SUPPORT. A family of statements about the instruction as syntax, one lemma per constructor. -/

namespace Sys2Proof.Laws.OpField

/-- The low four bits of an encoded request are the operation code of its row (30_encoding.md R76). -/
def Statement (i : Instr) : Prop := opOf (encode i) = opcode i

theorem hdec (handle) : Statement (.hdec handle) := by simp [Statement, opOf, encode, opcode]

theorem henc (wide devtype chan) : Statement (.henc wide devtype chan) := by simp [Statement, opOf, encode, opcode]

theorem hfmt (handle isfd) : Statement (.hfmt handle isfd) := by simp [Statement, opOf, encode, opcode]

theorem mcls (flags) : Statement (.mcls flags) := by simp [Statement, opOf, encode, opcode]

theorem dlcl (dlc) : Statement (.dlcl dlc) := by simp [Statement, opOf, encode, opcode]

theorem tscmb (micros millis overflow) : Statement (.tscmb micros millis overflow) := by
  simp [Statement, opOf, encode, opcode]

theorem tsfmt (ts) : Statement (.tsfmt ts) := by simp [Statement, opOf, encode, opcode]

theorem frn (id flags length ts bufn) : Statement (.frn id flags length ts bufn) := by
  simp [Statement, opOf, encode, opcode]

theorem frc (id flags len micros millis overflow bufn) : Statement (.frc id flags len micros millis overflow bufn) := by
  simp [Statement, opOf, encode, opcode]

theorem frf (id flags dlc ts bufn) : Statement (.frf id flags dlc ts bufn) := by
  simp [Statement, opOf, encode, opcode]

end Sys2Proof.Laws.OpField
end

