-- ==== Sys2Proof/Laws/Safety.lean ====
section
/-! SUPPORT. The host's duties and the canonical form of the buffers. -/

namespace Sys2Proof

/-- A buffer that lists an index holds a byte there. -/
theorem Memory.read_isSome_of_mem {m : Memory} {a : Nat} (h : a ∈ m.map (·.1)) : (m.read a).isSome = true := by
  obtain ⟨c, hc, rfl⟩ := List.mem_map.1 h
  simp only [Memory.read, Option.isSome_map, List.find?_isSome]
  exact ⟨c, hc, by simp⟩

namespace Machine

/-- A request presented as the host should present it supplies every byte its count claims. -/
theorem Request.supplied_of_wellPresented {r : Request} {i : Instr} (hd : decode r.req = .ok i)
    (h : i.wellPresented r.pbuf = true) : r.supplied := by
  intro j hj n hn hcap a ha
  rw [hd] at hj
  cases hj
  simp only [Instr.wellPresented, Instr.bufferTruthful, hn, Bool.and_eq_true, Bool.or_eq_true, decide_eq_true_eq,
    beq_iff_eq] at h
  obtain ⟨-, h | h⟩ := h
  · omega
  · exact Memory.read_isSome_of_mem (by rw [h]; exact List.mem_range.2 ha)

/-- Retiring a request, delivering a response and putting a word at the port keep every queued buffer canonical. -/
theorem State.retire_buffers {s : State} (h : ∀ q ∈ s.queue, q.pbuf.wf = true) :
    ∀ q ∈ s.retire.queue, q.pbuf.wf = true :=
  fun q hq => h q (List.mem_of_mem_tail hq)

theorem State.deliver_buffers {s : State} (x : Response) (h : ∀ q ∈ s.queue, q.pbuf.wf = true) :
    ∀ q ∈ (s.deliver x).queue, q.pbuf.wf = true := h

theorem State.pbuf_wf {s : State} (h : ∀ q ∈ s.queue, q.pbuf.wf = true) : s.pbuf.wf = true := by
  cases hq : s.queue with
  | nil => simp [State.pbuf, hq, Memory.wf, Memory.rising, Memory.inCapacity]
  | cons r rest => rw [State.pbuf_of_queue s r hq]; exact h r (by simp [hq])

theorem State.presentWord_buffers {s : State} (w : ReqWord) (h : ∀ q ∈ s.queue, q.pbuf.wf = true) :
    ∀ q ∈ (s.presentWord w).queue, q.pbuf.wf = true := by
  intro q hq
  simp only [State.presentWord_queue, List.mem_cons] at hq
  obtain rfl | hq := hq
  · exact State.pbuf_wf h
  · exact h q (List.mem_of_mem_tail hq)

end Machine
end Sys2Proof
end

