-- ==== Sys2Proof/Laws/Step.lean ====
section
/-! SUPPORT. What the shared operations around `exec` can do. -/

namespace Sys2Proof.Machine

/-- Completing is delivering the results. -/
theorem complete_eq (r : Results) (s : State) : complete r s = .next (s.deliver (.ok r)) := rfl

/-- Raising is delivering the exception, and nothing else. -/
theorem raise_eq (c : Cause) (s : State) : raise c s = .next (s.deliver (.exception c)) := rfl

/-- `onNext` answers a next state only from a next state. -/
theorem onNext_eq_next {f : State → State} {o : Host.Outcome State Fault Refusal} {t : State}
    (h : onNext f o = .next t) : ∃ u, o = .next u ∧ t = f u := by
  cases o with
  | next u => exact ⟨u, rfl, by simpa [onNext] using h.symm⟩
  | fault r => simp [onNext] at h
  | refused r => simp [onNext] at h

/-- All that a step can do: nothing when idle, or the transaction of the request at the port. -/
theorem transact_cases (s : State) :
    (s.queue = [] ∧ transact s = .next s) ∨
      ∃ r rest, s.queue = r :: rest ∧ transact s = onNext State.retire (performBy exec r.req s) := by
  cases h : s.queue with
  | nil => exact .inl ⟨rfl, by simp [transact, transactBy, h]⟩
  | cons r rest => exact .inr ⟨r, rest, rfl, by simp [transact, transactBy, h]⟩

/-- A run that begins with a step to `t` is the rest of the run from `t`. -/
theorem run_succ {n : Nat} {s t : State} (h : step s = .next t) :
    Host.Core.run Sys2Proof.core (n + 1) s = Host.Core.run Sys2Proof.core n t := by
  have h' : Sys2Proof.core.step s = .next t := h
  simp only [Host.Core.run, h']

/-- A run of no steps. -/
theorem run_zero (s : State) : Host.Core.run Sys2Proof.core 0 s = .next s := rfl

/-- The operation code of a request word as a number. -/
theorem opOf_toNat (w : ReqWord) : (opOf w).toNat = w.toNat % 16 := by
  simp [opOf, field, BitVec.extractLsb'_toNat]

end Sys2Proof.Machine
end

