-- ==== Sys2Proof/Machine/Listing.lean ====
section
/-! DEFINITION. The listing of a request (30_encoding.md R81, R82): one line, mnemonic in lower case, operands in the
order of R81 separated by commas, numbers in decimal, the buffer as two-digit hexadecimal bytes (DESIGN CHOICE, log
entry 13). No rule of the machine reads it. -/

namespace Sys2Proof.Machine

/-- Texts with `sep` between two of them. -/
def joined (sep : Text) : List Text → Text
  | [] => []
  | [t] => t
  | t :: u :: rest => t ++ sep ++ joined sep (u :: rest)

/-- The bracketed list of the bytes of a buffer, `[]` when `bufn` is no buffer size (R81). -/
def bytesListing (bufn : BitVec 7) (m : Memory) : Text :=
  ascii ['['] ++ (if bufn.toNat > Config.pbufCap then [] else joined (ascii [' ']) (m.map fun c => hex 2 c.2.toNat)) ++
    ascii [']']

/-- A mnemonic and its operands. -/
def line (mnemonic : List Char) (operands : List Text) : Text :=
  ascii mnemonic ++ ascii [' '] ++ joined (ascii [',', ' ']) operands

/-- A one-bit operand. -/
def decBit (b : Bool) : Text := if b then dec 1 else dec 0

/-- The listing of an operation with its buffer (R81). -/
def listing (m : Memory) : Instr → Text
  | .hdec handle => line ['h', 'd', 'e', 'c'] [dec handle.toNat]
  | .henc wide devtype chan => line ['h', 'e', 'n', 'c'] [decBit wide, dec devtype.toNat, dec chan.toNat]
  | .hfmt handle isfd => line ['h', 'f', 'm', 't'] [dec handle.toNat, decBit isfd]
  | .mcls flags => line ['m', 'c', 'l', 's'] [dec flags.toNat]
  | .dlcl dlc => line ['d', 'l', 'c', 'l'] [dec dlc.toNat]
  | .tscmb micros millis overflow =>
      line ['t', 's', 'c', 'm', 'b'] [dec micros.toNat, dec millis.toNat, dec overflow.toNat]
  | .tsfmt ts => line ['t', 's', 'f', 'm', 't'] [dec ts.toNat]
  | .frn id flags length ts bufn =>
      line ['f', 'r', 'n']
        [dec id.toNat, dec flags.toNat, dec length.toNat, dec ts.toNat, dec bufn.toNat, bytesListing bufn m]
  | .frc id flags len micros millis overflow bufn =>
      line ['f', 'r', 'c']
        [dec id.toNat, dec flags.toNat, dec len.toNat, dec micros.toNat, dec millis.toNat, dec overflow.toNat,
          dec bufn.toNat, bytesListing bufn m]
  | .frf id flags dlc ts bufn =>
      line ['f', 'r', 'f']
        [dec id.toNat, dec flags.toNat, dec dlc.toNat, dec ts.toNat, dec bufn.toNat, bytesListing bufn m]

end Sys2Proof.Machine
end

