-- ==== Sys2Proof/Tests/Slice0.lean ====
section
/-! SUPPORT. Tests with expected values from 95_test_vectors.md and from the rules' corner cases, the refusals of
well-formedness, and a witness for the hypotheses of each statement. -/

open Sys2Proof Sys2Proof.Machine Sys2Proof.Spec

namespace Sys2Proof.Tests

/-- One request with a buffer at the port of a fresh block. -/
def port (w : ReqWord) (bytes : List Byte) : State :=
  { State.reset with queue := [{ req := w, pbuf := Memory.ofBytes bytes }] }

/-- The last response after one step. -/
def respond (w : ReqWord) (bytes : List Byte) : Option Response :=
  match step (port w bytes) with
  | .next t => t.responses.getLast?
  | .fault _ => none
  | .refused _ => none

/-- The results after one step, when the response is OK. -/
def results (w : ReqWord) (bytes : List Byte) : Option Results :=
  match respond w bytes with
  | some (.ok r) => some r
  | some (.exception _) => none
  | none => none

/-! ## Well-formedness: what it refuses -/

theorem test_wf_accepts : (Instr.frn 0x123 0 3 0 3).wellPresented (Memory.ofBytes [0x11, 0x22, 0x33]) = true := by decide

theorem test_wf_refuses_unsorted : (Instr.hdec 0).wellPresented [(1, 0x11), (0, 0x22)] = false := by decide

theorem test_wf_refuses_repeat : (Instr.hdec 0).wellPresented [(0, 0x11), (0, 0x22)] = false := by decide

theorem test_wf_refuses_beyond_capacity : (Instr.hdec 0).wellPresented [(64, 0x11)] = false := by decide

theorem test_wf_refuses_overstated_count : (Instr.frn 0x123 0 3 0 4).wellPresented (Memory.ofBytes [0x11, 0x22, 0x33]) = false := by
  decide

theorem test_wf_refuses_understated_count : (Instr.frf 0x123 0 1 0 2).wellPresented (Memory.ofBytes [0x11, 0x22, 0x33]) = false := by
  decide

/-! ## Decoding and encoding: one word of each format -/

theorem test_decode_hdec : decode 0x0000000000000000000000000000000000012341 = .ok (.hdec 0x1234) := by decide

theorem test_decode_henc : decode 0x000000000000000000000000000000001FE001E2 = .ok (.henc false 15 255) := by decide

theorem test_decode_hfmt : decode 0x00000000000000000000000000000000001FFFF3 = .ok (.hfmt 0xFFFF true) := by decide

theorem test_decode_mcls_ignores_bit_12 : decode 0x0000000000000000000000000000000000001024 = .ok (.mcls 0x02) := by decide

theorem test_decode_dlcl_ignored_bits : decode 0xFFFFFFFFFFFFFFFFFFFFFFFFFFFFFFFFFFFFFF95 = .ok (.dlcl 9) := by decide

theorem test_decode_tscmb : decode 0x000000000000000004189374BC6A7EF000002676 = .ok (.tscmb 615 1271310319 4294967) := by
  decide

theorem test_decode_tsfmt : decode 0x00000000000000000000000FFFFFFFFFFFFFFBD7 = .ok (.tsfmt 18446744073709551549) := by decide

theorem test_decode_frn : decode 0x0000000000400000000075BCD150480000001008 = .ok (.frn 0x100 0x80 4 123456789 4) := by decide

theorem test_decode_frc : decode 0x00800000000FFFFFFFF000003E7080218DAF1109 = .ok (.frc 0x18DAF110 2 8 999 4294967295 0 8) := by
  decide

theorem test_decode_frf_ignored_bits : decode 0xFFFFFFFFF8C0000000000000000F90400000123A = .ok (.frf 0x123 4 9 0 12) := by decide

theorem test_decode_reserved : decode 0xFFFFFFFFFFFFFFFFFFFFFFFFFFFFFFFFFFFFFFFF = .error (.opReserved 0xF) := by decide

theorem test_encode_frc : encode (.frc 0x123 0 3 500 10 0 8) = 0x008000000000000000A000001F40300000001239 := by decide

theorem test_encode_henc : encode (.henc true 5 9) = 0x00000000000000000000000000000000012000B2 := by decide

theorem test_decodeTableWord : decodeTableWord 160 0x511 = some (.hdec 0x51) ∧ decodeTableWord 160 0xB = none := by decide

/-! ## Each operation: one step -/

theorem test_hdec_boundary : respond 0x0000000000000000000000000000000000001001 [] = some (.ok { devtype := 1, chan := 0 }) := by decide

theorem test_henc_wide : respond 0x00000000000000000000000000000000012000B2 [] = some (.ok { handle := 0x0509 }) := by decide

theorem test_henc_refuses_wide_zero : respond 0x0000000000000000000000000000000000A00012 [] = some (.exception .hencRange) := by decide

theorem test_hfmt_longest :
    (results 0x00000000000000000000000000000000001FFFF3 []).map (·.handleTxt) =
      some (ascii ['2', '5', '5', ':', 'F', 'D', ' ', '2', '5', '5', ' ', '(', 'F', 'F', 'F', 'F', 'h', ')']) := by decide

theorem test_hfmt_pads :
    (results 0x0000000000000000000000000000000000000003 []).map (·.handleTxt) = some (ascii ['0', ' ', '0', ' ', '(', '0', '0', 'h', ')']) := by decide

theorem test_mcls_fd_brs :
    respond 0x00000000000000000000000000000000000000E4 [] = some (.ok { kind := .fdVariant, ext := true, fd := true, brs := true, typeTxt := ascii ['E', 'X', 'T', ' ', '[', ' ', 'F', 'D', ' ', 'B', 'R', 'S', ' ', ']'] }) := by
  decide

theorem test_mcls_rtr_hides_brs :
    respond 0x00000000000000000000000000000000000000B4 [] = some (.ok { kind := .extendedRTR, ext := true, amb := true, typeTxt := ascii ['E', 'X', 'T', '/', 'R', 'T', 'R'] }) := by
  decide

theorem test_dlcl_first_nonlinear : respond 0x0000000000000000000000000000000000000095 [] = some (.ok { length := 12 }) := by decide

theorem test_tscmb_last_without_wrap : respond 0x000000000000000004189374BC6A7EF000002676 [] = some (.ok { ts := 18446744073709551615 }) := by
  decide

theorem test_tscmb_first_wrap : respond 0x000000000000000004189374BC6A7EF000002686 [] = some (.ok { ts := 0, wrap := true }) := by decide

theorem test_tsfmt_tie : tenthsText (tenthsOf .halfUp 1050) = ascii ['1', '.', '1'] ∧ tenthsText (tenthsOf .halfEven 1050) = ascii ['1', '.', '0'] := by
  decide

theorem test_tsfmt_longest :
    tenthsText (tenthsOf .halfUp 18446744073709551615) = ascii ['1', '8', '4', '4', '6', '7', '4', '4', '0', '7', '3', '7', '0', '9', '5', '5', '1', '.', '6'] := by
  decide

theorem test_frn_shows_length_bytes :
    (results 0x0000000000800000000000029040300000001238 [0x11, 0x22, 0x33, 0, 0, 0, 0, 0]).map (fun r => (r.idTxt, r.lenTxt, r.dataTxt)) =
      some (ascii ['1', '2', '3', 'h'], ascii ['3'], ascii ['1', '1', ' ', '2', '2', ' ', '3', '3']) := by decide

theorem test_frn_rtr_is_still_checked : respond 0x0000000000000000000000003E70801000007FF8 [] = some (.exception .lenGtBuf) := by decide

theorem test_frc_passes_wrap_on :
    (results 0x008004189374BC6A7EF000002680800000001239 [0, 0, 0, 0, 0, 0, 0, 0]).map (fun r => (r.ts, r.wrap, r.length)) =
      some (0, true, 8) := by decide

theorem test_frc_length_range_first : respond 0x0080000000000000000000000000900000003219 [1, 2, 3, 4, 5, 6, 7, 8] = some (.exception .lenRange) := by
  decide

theorem test_frf_table_length :
    (results 0xFFFFFFFFF8C0000000000000000F90400000123A (List.replicate 12 0xEE)).map (fun r => (r.length, r.dataTxt.length)) =
      some (12, 35) := by decide

theorem test_frf_buffer_too_small : respond 0x0000000003F00000000000000000F0400000123A (List.replicate 63 0) = some (.exception .lenGtBuf) := by
  decide

theorem test_reserved_opcode : respond 0xFFFFFFFFFFFFFFFFFFFFFFFFFFFFFFFFFFFFFFF0 [] = some (.exception .opReserved) := by decide

theorem test_withFetchWord_runs : step (State.reset.withFetchWord 160 0x95) = .next { queue := [], responses := [.ok { length := 12 }], serial := 1 } := by
  rfl

theorem test_listing_frn :
    listing (Memory.ofBytes [0x11, 0xA2]) (.frn 5 0 2 7 2) =
      ascii ['f', 'r', 'n', ' ', '5', ',', ' ', '0', ',', ' ', '2', ',', ' ', '7', ',', ' ', '2', ',', ' ', '[', '1', '1', ' ', 'A', '2', ']'] := by
  decide

/-! ## Witnesses: values that meet the hypotheses of each statement, at the boundaries of its clauses -/

/-- `frn 0x321, FD, 8, 0, 8, [01 .. 08]` of program P3. -/
def goodFrame : Request := { req := 0x0000000000800000000000000000804000003218, pbuf := Memory.ofBytes [1, 2, 3, 4, 5, 6, 7, 8] }

/-- `frc 0x321, STD, 9, 0, 0, 0, 8, [01 .. 08]` of program P3, which is refused. -/
def badFrame : Request := { req := 0x0080000000000000000000000000900000003219, pbuf := Memory.ofBytes [1, 2, 3, 4, 5, 6, 7, 8] }

/-- `mcls FD`. -/
def plain : Request := { req := 0x0000000000000000000000000000000000000044, pbuf := [] }

theorem goodFrame_supplied : goodFrame.supplied :=
  Request.supplied_of_wellPresented (i := .frn 0x321 4 8 0 8) (by decide) (by decide)

theorem plain_supplied : plain.supplied := Request.supplied_of_wellPresented (i := .mcls 4) (by decide) (by decide)

theorem witness_EveryFormatReadsItsFields :
    (0x12341 : ReqWord).toNat % 16 = 0x1 ∧ (0x012000B2 : ReqWord).toNat % 16 = 0x2 ∧
    (0x105093 : ReqWord).toNat % 16 = 0x3 ∧ (0xE4 : ReqWord).toNat % 16 = 0x4 ∧ (0x95 : ReqWord).toNat % 16 = 0x5 ∧
    (0xA000001F46 : ReqWord).toNat % 16 = 0x6 ∧ (0x5DC7 : ReqWord).toNat % 16 = 0x7 ∧
    (0x1238 : ReqWord).toNat % 16 = 0x8 ∧ (0x1239 : ReqWord).toNat % 16 = 0x9 ∧
    (0x400000123A : ReqWord).toNat % 16 = 0xA := by decide

theorem witness_EncodeKeepsExactlyTheUsedBits :
    decode 0xFFFFFFFFFFFFFFFFFFFFFFFFFFFFFFFFFFFFFF95 = .ok (.dlcl 9) ∧ 0 < 160 ∧ 159 < 160 := by decide

theorem witness_IgnoredBitsHaveNoEffect :
    (∀ k, k < 160 → usesBit (opOf 0x0000000000000000000000000000000000000095) k = true →
      (0x0000000000000000000000000000000000000095 : ReqWord).getLsbD k =
        (0xFFFFFFFFFFFFFFFFFFFFFFFFFFFFFFFFFFFFFF95 : ReqWord).getLsbD k) ∧
    (¬ ∃ i, decode 0x000000000000000000000000000000000000000B = .ok i) := by
  refine ⟨by decide +kernel, ?_⟩
  rintro ⟨i, h⟩
  cases h

theorem witness_ReservedOpcodeRaises :
    (port 0 []).queue = [{ req := 0, pbuf := [] }] ∧ (0 : ReqWord).toNat % 16 = 0 ∧
    (port 0xB []).queue = [{ req := 0xB, pbuf := [] }] ∧ 11 ≤ (0xB : ReqWord).toNat % 16 ∧
    (port 0xF []).queue = [{ req := 0xF, pbuf := [] }] ∧ 11 ≤ (0xF : ReqWord).toNat % 16 := by decide

theorem witness_StepRunsTheDecodedOperation :
    (port 0x95 []).queue = [{ req := 0x95, pbuf := [] }] ∧ decode 0x95 = .ok (.dlcl 9) := by decide

theorem witness_IdleStepChangesNothing : State.reset.queue = [] := rfl

theorem witness_EveryRequestGetsOneResponse : (port 0x95 []).queue = [{ req := 0x95, pbuf := [] }] := by decide

/-- Two frames with equal words and equal supplied bytes, one with a byte more behind them, after different histories. -/
theorem witness_EqualTransactionsHaveEqualResponses :
    ∃ (s s' : State) (r r' : Request), s ≠ s' ∧ r ≠ r' ∧ s.queue = [r] ∧ s'.queue = [r', plain] ∧ r.req = r'.req ∧
      ∀ i n, decode r.req = .ok i → i.bufn? = some n → n ≤ 64 → ∀ a, a < n → s.bufByte a = s'.bufByte a := by
  refine ⟨{ State.reset with queue := [goodFrame] },
    { queue := [{ goodFrame with pbuf := Memory.ofBytes [1, 2, 3, 4, 5, 6, 7, 8, 9] }, plain],
      responses := [.exception .lenRange], serial := 7 },
    goodFrame, { goodFrame with pbuf := Memory.ofBytes [1, 2, 3, 4, 5, 6, 7, 8, 9] },
    by decide, by decide, rfl, rfl, rfl, ?_⟩
  intro i n hi hn _ a ha
  have hd : decode goodFrame.req = .ok (.frn 0x321 4 8 0 8) := by decide
  rw [hd] at hi
  cases hi
  cases hn
  change a < 8 at ha
  interval_cases a <;> rfl

theorem witness_ResponsesComeBackInRequestOrder :
    ∀ r ∈ ({ State.reset with queue := [goodFrame, plain] } : State).queue, r.supplied := by
  intro r hr
  simp only [List.mem_cons, List.not_mem_nil, or_false] at hr
  obtain rfl | rfl := hr
  · exact goodFrame_supplied
  · exact plain_supplied

theorem witness_RefusedRequestLeavesNoMark :
    ({ State.reset with queue := [badFrame, goodFrame] } : State).queue = [badFrame, goodFrame] ∧ goodFrame.supplied ∧
    step { State.reset with queue := [badFrame, goodFrame] } =
      .next { queue := [goodFrame], responses := [.exception .lenRange], serial := 1 } ∧
    ({ queue := [goodFrame], responses := [.exception .lenRange], serial := 1 } : State).responses =
      State.reset.responses ++ [.exception .lenRange] :=
  ⟨rfl, goodFrame_supplied, rfl, rfl⟩

theorem witness_TransactionsCommute :
    ({ State.reset with queue := [goodFrame, plain] } : State).queue = [goodFrame, plain] ∧ goodFrame.supplied ∧
      plain.supplied :=
  ⟨rfl, goodFrame_supplied, plain_supplied⟩

theorem witness_OperationsWithoutBufferReadNoByte : (Instr.hdec 0x51).bufn? = none := rfl

theorem witness_ResetInProgressGivesNoResponse :
    ({ State.reset with queue := [goodFrame] } : State).queue = [goodFrame] := rfl

theorem witness_HexTextStandsForItsNumber : 1 ≤ 3 ∧ 0xFFF < 16 ^ 3 ∧ 16 ^ 3 ≤ 0x1000 := by decide

theorem witness_HdecDecodesByMagnitude : (0xFF#16).toNat < 0x100 ∧ 0x100 ≤ (0x100#16).toNat := by decide

theorem witness_HencComposesWhatFits : Fits false 15 15 ∧ Fits false 0 0 ∧ Fits true 1 0 ∧ Fits true 255 255 := by
  simp [Fits]

theorem witness_HandleRoundTrips :
    exec (.henc true 5 9) State.reset = .next (answered State.reset (.ok { handle := 0x0509 })) ∧
    exec (.hdec 0x0509) State.reset = .next (answered State.reset (.ok { devtype := 5, chan := 9 })) ∧
    1 ≤ (15#16).toNat ∧ (15#16).toNat ≤ 15 ∧ (15#8).toNat ≤ 15 :=
  ⟨rfl, rfl, by decide⟩

/-- The layout of R7, and another one in which the rules read as written. -/
theorem witness_PrecedenceHoldsForEveryMaskLayout :
    Config.masks.valid = true ∧
    Masks.valid { rtr := 0x02, extended := 0x08, fd := 0x80, brs := 0x40, esi := 0x10, errframe := 0x01, status := 0x04 } =
      true ∧
    0x82#8 &&& Config.masks.status ≠ 0#8 ∧
    (0x46#8 &&& Config.masks.status = 0#8 ∧ 0x46#8 &&& Config.masks.errframe ≠ 0#8) ∧
    (0x05#8 &&& Config.masks.status = 0#8 ∧ 0x05#8 &&& Config.masks.errframe = 0#8 ∧ 0x05#8 &&& Config.masks.rtr ≠ 0#8) ∧
    (0x08#8 &&& Config.masks.status = 0#8 ∧ 0x08#8 &&& Config.masks.errframe = 0#8 ∧ 0x08#8 &&& Config.masks.rtr = 0#8 ∧
      0x08#8 &&& Config.masks.brs ≠ 0#8) := by decide

theorem witness_AmbMarksHiddenFdBits : Config.masks.valid = true := by decide

theorem witness_DlcTableIsStrictlyIncreasing : 8#4 < 9#4 := by decide

theorem witness_TscmbWrapBoundary :
    (4294966#32).toNat ≤ 4294966 ∧ (4294967#32).toNat = 4294967 ∧ 4294968 ≤ (4294968#32).toNat := by decide

theorem witness_RawTimestampIsRecoverable :
    (615#32).toNat ≤ 999 ∧
    exec (.tscmb 615 1271310319 4294967) State.reset =
      .next (answered State.reset (.ok { ts := 18446744073709551615, wrap := false })) :=
  ⟨by decide, rfl⟩

theorem witness_TsfmtIsNearestAndMonotone : (49#64).toNat ≤ (50#64).toNat := by decide

theorem witness_RoundingModesDifferOnlyAtEvenTies : 250 % 200 = 50 := by decide

theorem witness_MemReadGivesTheHostsByte :
    (port 0 [0x11, 0x22]).queue = [{ req := 0, pbuf := Memory.ofBytes [0x11, 0x22] }] ∧
      2 = ([0x11, 0x22] : List Byte).length := by decide

theorem witness_FrnRendersTheFrame : (64#8).toNat ≤ 64 ∧ (64#7).toNat ≤ 64 ∧ (64#8).toNat ≤ (64#7).toNat := by decide

theorem witness_FrcRendersTheClassicRecord : (8#8).toNat ≤ 8 ∧ (8#7).toNat ≤ 64 ∧ (8#8).toNat ≤ (8#7).toNat := by decide

theorem witness_FrfRendersTheFdRecord : (64#7).toNat ≤ 64 ∧ dlcLength 15 ≤ (64#7).toNat := by decide

theorem witness_FrameChecksAreReportedInOrder :
    64 < (65#7).toNat ∧ ((64#7).toNat ≤ 64 ∧ 64 < (65#8).toNat) ∧ ((9#7).toNat ≤ 64 ∧ 8 < (9#8).toNat) ∧
    ((63#7).toNat ≤ 64 ∧ (64#8).toNat ≤ 64 ∧ (63#7).toNat < (64#8).toNat) ∧
    ((7#7).toNat ≤ 64 ∧ (8#8).toNat ≤ 8 ∧ (7#7).toNat < (8#8).toNat) ∧
    ((63#7).toNat ≤ 64 ∧ (63#7).toNat < dlcLength 15) := by decide

/-- Two buffers that differ at index 3 only, for a length of 3; and two that differ everywhere, for an RTR frame. -/
theorem witness_NoByteBeyondLengthIsShown :
    (∀ a, a < (3#8).toNat → (port 0 [1, 2, 3, 4]).bufByte a = (port 0 [1, 2, 3, 5]).bufByte a) ∧
    (∀ a, a < dlcLength 3 → (port 0 [1, 2, 3, 4]).bufByte a = (port 0 [1, 2, 3, 5]).bufByte a) ∧
    (port 0 [1, 2, 3, 4]).bufByte 3 ≠ (port 0 [1, 2, 3, 5]).bufByte 3 ∧ 0x01#8 &&& Config.masks.rtr ≠ 0#8 := by
  refine ⟨fun a ha => ?_, fun a ha => ?_, by decide, by decide⟩
  · change a < 3 at ha
    interval_cases a <;> rfl
  · change a < 3 at ha
    interval_cases a <;> rfl

theorem witness_FrfIsFrnWithTheTableLength :
    exec (.dlcl 9) State.reset = .next (answered State.reset (.ok { length := 12 })) := rfl

/-- `frn 0x123, STD, 0, 616-microsecond wrap` on a fresh block; the time fields hold whatever `FMT_ROUND` gives. -/
theorem witness_FrcIsFrnWithTheCombinedTimestamp :
    (0#8).toNat ≤ 8 ∧
    exec (.tscmb 616 1271310319 4294967) State.reset = .next (answered State.reset (.ok { ts := 0, wrap := true })) ∧
    exec (.frn 0x123 0 0 0 0) State.reset =
      .next (answered State.reset (.ok (frameResults Config.params 0x123 0 0 0 false State.reset))) :=
  ⟨by decide, rfl, rfl⟩

theorem witness_FrameAgreesWithMclsAndTsfmt :
    exec (.frn 0x123 4 0 250 0) State.reset =
      .next (answered State.reset (.ok (frameResults Config.params 0x123 4 0 250 false State.reset))) ∧
    exec (.mcls 4) State.reset = .next (answered State.reset (.ok (Results.withCategory Config.masks {} 4))) ∧
    exec (.tsfmt 250) State.reset = .next (answered State.reset (.ok (Results.withTime Config.fmtRound {} 250))) :=
  ⟨rfl, rfl, rfl⟩

/-- A refusal on each side of `ExceptionsAreExactlyTheListedOnes`. -/
theorem witness_ExceptionsAreExactlyTheListedOnes :
    (Instr.henc false 16 0).cause? = some .hencRange ∧ (Instr.frn 0 0 65 0 65).cause? = some .bufnRange ∧
    (Instr.frc 0 0 9 0 0 0 8).cause? = some .lenRange ∧ (Instr.frf 0 0 15 0 63).cause? = some .lenGtBuf ∧
    (Instr.frn 0 0 64 0 64).cause? = none := by decide

theorem witness_StepKeepsTheInvariant :
    ({ State.reset with queue := [badFrame] } : State).Inv ∧
    step { State.reset with queue := [badFrame] } =
      .next { queue := [], responses := [.exception .lenRange], serial := 1 } := by
  refine ⟨⟨?_, ?_⟩, rfl⟩
  · intro r hr
    cases hr
  · decide

theorem witness_PresentingKeepsTheInvariant :
    ({ State.reset with queue := [] } : State).Inv ∧ goodFrame.pbuf.wf = true ∧ (List.replicate 64 (0#8)).length ≤ 64 := by
  refine ⟨⟨?_, ?_⟩, by decide, by decide⟩
  · intro r hr
    cases hr
  · intro q hq
    cases hq

/-! ## The parameters as arguments -/

/-- A layout that meets 93_implementation_defined.md V12 and is not that of R7: EXTENDED and STATUS moved. -/
def otherMasks : Masks :=
  { rtr := 0x01, extended := 0x04, fd := 0x08, brs := 0x10, esi := 0x20, errframe := 0x80, status := 0x40 }

theorem test_otherMasks_valid : otherMasks.valid = true ∧ otherMasks ≠ Config.masks := by decide

/-- `tsfmt 1050` gives "1.1" under half_up and "1.0" under half_even (R159). -/
theorem test_tsfmt_under_each_rule :
    execWith { masks := Config.masks, fmtRound := .halfUp } (.tsfmt 1050) State.reset =
      .next (answered State.reset (.ok { msInt := 1, msTenth := 1, timeTxt := ascii ['1', '.', '1'] })) ∧
    execWith { masks := Config.masks, fmtRound := .halfEven } (.tsfmt 1050) State.reset =
      .next (answered State.reset (.ok { msInt := 1, msTenth := 0, timeTxt := ascii ['1', '.', '0'] })) :=
  ⟨rfl, rfl⟩

/-- EXTENDED + FD of another layout is labelled by the names, not by the numbers (R8, R121). -/
theorem test_mcls_under_other_layout :
    execWith { masks := otherMasks, fmtRound := .halfUp } (.mcls 0x0C) State.reset =
      .next (answered State.reset (.ok {
        kind := .fdVariant
        ext := true
        fd := true
        typeTxt := ascii ['E', 'X', 'T', ' ', '[', ' ', 'F', 'D', ' ', ']'] })) := rfl

theorem witness_EveryInstanceRunsTheDecodedOperation :
    (port 0x95 []).queue = [{ req := 0x95, pbuf := [] }] ∧ decode 0x95 = .ok (.dlcl 9) ∧
    (port 0xB []).queue = [{ req := 0xB, pbuf := [] }] ∧ 11 ≤ (0xB : ReqWord).toNat % 16 ∧
    (0 : ReqWord).toNat % 16 = 0 := by decide

theorem witness_EqualTransactionsUnderEqualParameters :
    ∃ (s s' : State) (r r' : Request), s ≠ s' ∧ r ≠ r' ∧ s.queue = [r] ∧ s'.queue = [r', plain] ∧ r.req = r'.req ∧
      ∀ i n, decode r.req = .ok i → i.bufn? = some n → n ≤ 64 → ∀ a, a < n → s.bufByte a = s'.bufByte a :=
  witness_EqualTransactionsHaveEqualResponses

/-- The largest lengths of each operation and their smallest buffers. -/
theorem witness_FramesRenderUnderEveryParameters :
    (64#7).toNat ≤ 64 ∧ ((64#8).toNat ≤ 64 ∧ (64#8).toNat ≤ (64#7).toNat) ∧
    ((8#8).toNat ≤ 8 ∧ (8#8).toNat ≤ (8#7).toNat) ∧ dlcLength 15 ≤ (64#7).toNat ∧ dlcLength 0 ≤ (0#7).toNat := by
  decide

theorem witness_ParametersMatterOnlyWhereTheyAreNamed :
    ({ masks := otherMasks, fmtRound := .halfUp } : Params).masks = ({ masks := otherMasks, fmtRound := .halfEven } : Params).masks ∧
    ({ masks := otherMasks, fmtRound := .halfUp } : Params).fmtRound = ({ masks := Config.masks, fmtRound := .halfUp } : Params).fmtRound :=
  ⟨rfl, rfl⟩

theorem witness_EveryInstanceKeepsTheInvariant :
    ({ State.reset with queue := [badFrame] } : State).Inv ∧
    stepWith { masks := otherMasks, fmtRound := .halfEven } { State.reset with queue := [badFrame] } =
      .next { queue := [], responses := [.exception .lenRange], serial := 1 } :=
  ⟨witness_StepKeepsTheInvariant.1, rfl⟩

end Sys2Proof.Tests
end

section
/-! SUPPORT. The texts of 00_scope.md R11 as numbers: what value the characters of `dec` and `hex` stand for, and how
many there are. -/

open Sys2Proof Sys2Proof.Machine Sys2Proof.Spec

namespace Sys2Proof.Machine

/-- A digit character stands for its digit. -/
theorem digitChar_value {d : Nat} (h : d < 16) :
    (if (digitChar d).toNat < 0x3A then (digitChar d).toNat - 0x30 else (digitChar d).toNat - 0x37) = d := by
  by_cases h10 : d < 10
  · rw [digitChar_decimal h10]
    split_ifs <;> omega
  · rw [digitChar_letter (by omega) h]
    split_ifs <;> omega

/-- Only the digit 0 is written '0'. -/
theorem digit_eq_zero_of_digitChar {d : Nat} (h : d < 16) (hc : digitChar d = 0x30#8) : d = 0 := by
  have hv := digitChar_value h
  rw [hc] at hv
  exact hv.symm

/-- A text of digit characters stands for the number its digits read as. -/
theorem valueOf_map_digitChar (base : Nat) {ds : List Nat} (h : ∀ d ∈ ds, d < 16) :
    valueOf base (ds.map digitChar) = readDigits base 0 ds := by
  rw [valueOf, List.foldl_map, readDigits]
  exact List.foldl_ext _ _ _ fun n d hd => by rw [digitChar_value (h d hd)]

/-- Zeros on the left do not change what digits read as. -/
theorem readDigits_zeros_append (base k : Nat) (ds : List Nat) :
    readDigits base 0 (List.replicate k 0 ++ ds) = readDigits base 0 ds := by
  induction k with
  | zero => rfl
  | succ k ih => simpa [readDigits, List.replicate_succ] using ih

/-- A hexadecimal text is the text of the digits with zeros put before them up to the width. -/
theorem hex_eq_map (width n : Nat) :
    hex width n = (List.replicate (width - (digits 16 n).length) 0 ++ digits 16 n).map digitChar := by
  simp [hex]

/-- A decimal text stands for its number. -/
theorem valueOf_dec (n : Nat) : valueOf 10 (dec n) = n := by
  obtain ⟨d, ds, hd, hval, hlt, -⟩ := digits_spec 10 (by omega) n
  rw [dec, hd, valueOf_map_digitChar 10 fun e he => (hlt e he).trans (by omega), hval]

/-- A hexadecimal text of any width stands for its number. -/
theorem valueOf_hex (width n : Nat) : valueOf 16 (hex width n) = n := by
  obtain ⟨d, ds, hd, hval, hlt, -⟩ := digits_spec 16 (by omega) n
  have hall : ∀ e ∈ List.replicate (width - (digits 16 n).length) 0 ++ digits 16 n, e < 16 := by
    intro e he
    obtain he | he := List.mem_append.1 he
    · simp [List.eq_of_mem_replicate he]
    · exact hlt e (hd ▸ he)
  rw [hex_eq_map, valueOf_map_digitChar 16 hall, readDigits_zeros_append, hd, hval]

/-- A decimal text has at least one character. -/
theorem dec_ne_nil (n : Nat) : dec n ≠ [] := by
  obtain ⟨d, ds, hd, -⟩ := digits_spec 10 (by omega) n
  simp [dec, hd]

/-- Only zero has a decimal text that begins with '0'. -/
theorem eq_zero_of_dec_head {n : Nat} (h : (dec n).head? = some 0x30#8) : n = 0 := by
  obtain ⟨d, ds, hd, -, hlt, hzero, -⟩ := digits_spec 10 (by omega) n
  have hlt : d < 10 := hlt d (by simp)
  simp only [dec, hd, List.map_cons, List.head?_cons, Option.some.injEq] at h
  exact hzero (digit_eq_zero_of_digitChar (by omega) h)

/-- A hexadecimal text has exactly the width when that suffices. -/
theorem hex_length_eq {width n : Nat} (hw : 1 ≤ width) (h : n < 16 ^ width) : (hex width n).length = width := by
  have hle := hex_length_le hw (le_refl width) h
  have hge : width ≤ (hex width n).length := by simp [hex_eq_map]; omega
  omega

/-- A number that does not fit the width has more digits than that, none of them padding. -/
theorem hex_of_wide {width n : Nat} (h : 16 ^ width ≤ n) :
    width < (hex width n).length ∧ (hex width n).head? ≠ some 0x30#8 := by
  obtain ⟨d, ds, hd, -, hlt, hzero, -, hlong⟩ := digits_spec 16 (by omega) n
  have hmore : width < ds.length + 1 := hlong width h
  have hpad : width - (digits 16 n).length = 0 := by simp [hd]; omega
  have hhex : hex width n = digitChar d :: ds.map digitChar := by rw [hex_eq_map, hpad, hd]; rfl
  refine ⟨by simpa [hhex] using hmore, fun hhead => ?_⟩
  rw [hhex, List.head?_cons, Option.some.injEq] at hhead
  have hn : n = 0 := hzero (digit_eq_zero_of_digitChar (hlt d (by simp)) hhead)
  have hpos : 0 < 16 ^ width := Nat.pow_pos (by omega)
  omega

end Sys2Proof.Machine

namespace Sys2Proof

/-- Settles O18, from what `digits_spec` says of the digits of a number in base ten. -/
theorem decimalTextStandsForItsNumber : Obligations.DecimalTextStandsForItsNumber := by
  intro n
  exact ⟨valueOf_dec n, fun c => dec_chars, dec_ne_nil n, eq_zero_of_dec_head, by rintro rfl; rfl⟩

/-- Settles O19: padding adds zero digits only, and only when the digits are fewer than the width. -/
theorem hexTextStandsForItsNumber : Obligations.HexTextStandsForItsNumber := by
  intro width n hw
  exact ⟨valueOf_hex width n, fun c => hex_chars, hex_length_eq hw, hex_of_wide⟩

end Sys2Proof
end

section
/-! SUPPORT. What an operation can answer under given parameters: an exception exactly when its operands name a cause
(60_exceptions.md R208), and results otherwise. -/

open Sys2Proof Sys2Proof.Machine Sys2Proof.Spec

namespace Sys2Proof.Machine

/-- The state that the statements call answered is the state after delivering the response. -/
theorem answered_eq (s : State) (x : Response) : answered s x = s.deliver x := rfl

/-- Different responses leave different states. -/
theorem deliver_inj {s : State} {x y : Response} : s.deliver x = s.deliver y ↔ x = y := by
  simp [State.deliver]

/-- The checks of a frame operation are the priority list of its causes (R171, R180, R208). -/
theorem checkFrame_eq_frameCause (maxLength length bufn : Nat) :
    checkFrame maxLength length bufn = frameCause maxLength length bufn := by
  simp [checkFrame, frameCause, firstCause, Config.pbufCap]

/-- HENC has a cause exactly when its operands do not fit the layout (R102, R206). -/
theorem cause?_henc (wide : Bool) (devtype : BitVec 16) (chan : BitVec 8) :
    (Instr.henc wide devtype chan).cause? = if handleFits wide devtype chan then none else some .hencRange := by
  cases wide with
  | false =>
    by_cases h : devtype.toNat ≤ 15 ∧ chan.toNat ≤ 15
    · simp [Instr.cause?, firstCause, handleFits, h]
    · have h' : 15 < devtype.toNat ∨ 15 < chan.toNat := by omega
      simp [Instr.cause?, firstCause, handleFits, h, h']
  | true =>
    by_cases h : devtype.toNat ≠ 0 ∧ devtype.toNat ≤ 255
    · simp [Instr.cause?, firstCause, handleFits, h]
    · have h' : devtype.toNat = 0 ∨ 255 < devtype.toNat := by omega
      simp [Instr.cause?, firstCause, handleFits, h, h']

/-- Every length of the DLC table fits the 8 bits of a frame length. -/
theorem lengthFromDlc_toNat (dlc : BitVec 4) : (lengthFromDlc dlc).toNat = dlcTable.getD dlc.toNat 0 := by
  revert dlc
  decide

/-- The outcome `o` in state `s` is the one that the cause `c?` calls for: that exception, or some results if there is
none. -/
def AnswersCause (c? : Option Cause) (s : State) (o : Host.Outcome State Fault Refusal) : Prop :=
  match c? with
  | some c => o = .next (s.deliver (.exception c))
  | none => ∃ r, o = .next (s.deliver (.ok r))

/-- An outcome that a cause calls for is the exception `c` exactly when `c` is that cause. -/
theorem AnswersCause.eq_exception_iff {c? : Option Cause} {s : State} {o : Host.Outcome State Fault Refusal}
    (h : AnswersCause c? s o) (c : Cause) : o = .next (s.deliver (.exception c)) ↔ c? = some c := by
  cases c? with
  | some d =>
    have ho : o = .next (s.deliver (.exception d)) := h
    simp [ho, deliver_inj]
  | none =>
    obtain ⟨r, ho⟩ := h
    simp [ho, deliver_inj]

/-- A completed operation answers the absence of a cause. -/
theorem complete_answersCause (r : Results) (s : State) : AnswersCause none s (complete r s) := ⟨r, complete_eq r s⟩

/-- HENC answers its cause. -/
theorem execHenc_answersCause (wide : Bool) (devtype : BitVec 16) (chan : BitVec 8) (s : State) :
    AnswersCause (Instr.henc wide devtype chan).cause? s (execHenc wide devtype chan s) := by
  rw [cause?_henc, execHenc]
  split_ifs
  · exact complete_answersCause _ s
  · exact raise_eq .hencRange s

/-- A frame operation answers the first cause of its priority list. -/
theorem checkAndRender_answersCause (p : Params) (maxLength : Nat) (id : BitVec 32) (flags length : BitVec 8)
    (ts : BitVec 64) (bufn : BitVec 7) (wrap : Bool) (s : State) :
    AnswersCause (frameCause maxLength length.toNat bufn.toNat) s
      (checkAndRender p maxLength id flags length ts bufn wrap s) := by
  rw [← checkFrame_eq_frameCause]
  obtain ⟨c, hc, ho⟩ | ⟨hc, ho⟩ := checkAndRender_cases p maxLength id flags length ts bufn wrap s
  · rw [hc]
    exact ho
  · rw [hc]
    exact ⟨_, ho⟩

/-- Under all parameters every operation answers its cause. -/
theorem execWith_answersCause (p : Params) (i : Instr) (s : State) : AnswersCause i.cause? s (execWith p i s) := by
  cases i with
  | hdec handle => exact complete_answersCause _ s
  | henc wide devtype chan => exact execHenc_answersCause wide devtype chan s
  | hfmt handle isfd => exact complete_answersCause _ s
  | mcls flags => exact complete_answersCause _ s
  | dlcl dlc => exact complete_answersCause _ s
  | tscmb micros millis overflow => exact complete_answersCause _ s
  | tsfmt ts => exact complete_answersCause _ s
  | frn id flags length ts bufn => exact checkAndRender_answersCause p 64 id flags length ts bufn false s
  | frc id flags len micros millis overflow bufn => exact checkAndRender_answersCause p 8 id flags len _ bufn _ s
  | frf id flags dlc ts bufn =>
    rw [Instr.cause?, ← lengthFromDlc_toNat]
    exact checkAndRender_answersCause p 64 id flags (lengthFromDlc dlc) ts bufn false s

/-- MCLS reads the mask layout alone of the parameters. -/
theorem execMclsWith_congr {p p' : Params} (h : p.masks = p'.masks) (flags : BitVec 8) (s : State) :
    execMclsWith p flags s = execMclsWith p' flags s := by
  rw [execMclsWith, execMclsWith, h]

/-- TSFMT reads the rounding rule alone of the parameters. -/
theorem execTsfmtWith_congr {p p' : Params} (h : p.fmtRound = p'.fmtRound) (ts : BitVec 64) (s : State) :
    execTsfmtWith p ts s = execTsfmtWith p' ts s := by
  rw [execTsfmtWith, execTsfmtWith, h]

end Sys2Proof.Machine

namespace Sys2Proof

/-- Settles O57: five meanings take no parameters, MCLS and TSFMT take one field of them, and the cause that an operation
answers is a function of its operands. -/
theorem parametersMatterOnlyWhereTheyAreNamed : Obligations.ParametersMatterOnlyWhereTheyAreNamed := by
  intro p p' s
  refine ⟨fun _ => rfl, fun _ _ _ => rfl, fun _ _ => rfl, fun _ => rfl, fun _ _ _ => rfl,
    fun flags h => execMclsWith_congr h flags s, fun ts h => execTsfmtWith_congr h ts s, fun i c => ?_⟩
  rw [answered_eq]
  exact (execWith_answersCause p i s).eq_exception_iff c

end Sys2Proof
end

section
/-! SUPPORT. What a transaction takes from the state (10_state.md R20 to R22): the request word, and the bytes of the
buffer that its count claims. -/

open Sys2Proof Sys2Proof.Machine Sys2Proof.Spec

namespace Sys2Proof.Machine

/-- The machine performs operations under the parameters of Config (R232). -/
theorem exec_eq_execWith : exec = execWith Config.params := by
  funext i s
  cases i <;> rfl

/-- The step is the step under the parameters of Config (R232). -/
theorem step_eq_stepWith (s : State) : step s = stepWith Config.params s := by
  simp only [step, transact, stepWith, transactWith, exec_eq_execWith]

/-- Delivering the response and letting the request go is the state that the statements call performed. -/
theorem retire_deliver {s : State} {r : Request} {rest : List Request} (hq : s.queue = r :: rest) (x : Response) :
    (s.deliver x).retire = performed s rest x := by
  simp [State.retire, State.deliver, performed, hq]

/-- Different responses leave different states behind. -/
theorem performed_inj {s : State} {rest : List Request} {x y : Response} :
    performed s rest x = performed s rest y ↔ x = y := by
  simp [performed]

/-- The transaction of the request at the port, over any function that performs an operation. -/
theorem transactBy_of_queue {s : State} {r : Request} {rest : List Request} (hq : s.queue = r :: rest)
    (run : Instr → State → Host.Outcome State Fault Refusal) :
    transactBy run s = onNext State.retire (performBy run r.req s) := by
  simp only [transactBy, hq]

/-- A word that decodes is performed as its operation. -/
theorem performBy_of_ok {w : ReqWord} {i : Instr} (hd : decode w = .ok i)
    (run : Instr → State → Host.Outcome State Fault Refusal) (s : State) : performBy run w s = run i s := by
  simp only [performBy, hd]

/-- A word that does not decode raises OP_RESERVED. -/
theorem performBy_of_error {w : ReqWord} {e : DecodeError} (hd : decode w = .error e)
    (run : Instr → State → Host.Outcome State Fault Refusal) (s : State) :
    performBy run w s = .next (s.deliver (.exception .opReserved)) := by
  simp only [performBy, hd, raise_eq]

/-- The six reserved codes do not decode (R77). -/
theorem decode_of_reserved {w : ReqWord} (h : w.toNat % 16 = 0 ∨ 11 ≤ w.toNat % 16) :
    decode w = .error (.opReserved (opOf w)) := by
  rw [← opOf_toNat] at h
  unfold decode
  split
  case h_11 => rfl
  all_goals omega

/-- A request whose word is performed by delivering one response is over with that response. -/
theorem stepWith_of_performBy {p : Params} {s : State} {r : Request} {rest : List Request} {x : Response}
    (hq : s.queue = r :: rest) (h : performBy (execWith p) r.req s = .next (s.deliver x)) :
    stepWith p s = .next (performed s rest x) := by
  rw [stepWith, transactWith, transactBy_of_queue hq, h, onNext, retire_deliver hq]

/-- An operation gives the same response in two states whose buffers agree on the bytes its count claims (R21, R41). -/
theorem execWith_congr (p : Params) (i : Instr) {s s' : State}
    (h : ∀ n, i.bufn? = some n → n ≤ 64 → ∀ a, a < n → s.bufByte a = s'.bufByte a) :
    ∃ x, execWith p i s = .next (s.deliver x) ∧ execWith p i s' = .next (s'.deliver x) := by
  cases i with
  | hdec handle => exact ⟨_, complete_eq _ s, complete_eq _ s'⟩
  | henc wide devtype chan =>
    simp only [execWith, execHenc]
    split_ifs
    · exact ⟨_, complete_eq _ s, complete_eq _ s'⟩
    · exact ⟨_, raise_eq .hencRange s, raise_eq .hencRange s'⟩
  | hfmt handle isfd => exact ⟨_, complete_eq _ s, complete_eq _ s'⟩
  | mcls flags => exact ⟨_, complete_eq _ s, complete_eq _ s'⟩
  | dlcl dlc => exact ⟨_, complete_eq _ s, complete_eq _ s'⟩
  | tscmb micros millis overflow => exact ⟨_, complete_eq _ s, complete_eq _ s'⟩
  | tsfmt ts => exact ⟨_, complete_eq _ s, complete_eq _ s'⟩
  | frn id flags length ts bufn =>
    exact checkAndRender_congr p _ id flags length ts bufn _ <| .inr fun a ha hle hcap =>
      h _ rfl hcap a (ha.trans_le hle)
  | frc id flags len micros millis overflow bufn =>
    exact checkAndRender_congr p _ id flags len _ bufn _ <| .inr fun a ha hle hcap =>
      h _ rfl hcap a (ha.trans_le hle)
  | frf id flags dlc ts bufn =>
    exact checkAndRender_congr p _ id flags _ ts bufn _ <| .inr fun a ha hle hcap =>
      h _ rfl hcap a (ha.trans_le hle)

/-- Under all parameters every operation delivers one response and changes nothing else. -/
theorem execWith_delivers (p : Params) (i : Instr) (s : State) : ∃ x, execWith p i s = .next (s.deliver x) := by
  obtain ⟨x, hx, -⟩ := execWith_congr p i (s := s) (s' := s) fun _ _ _ _ _ => rfl
  exact ⟨x, hx⟩

/-- Performing a request word gives the same response in two states whose buffers agree on the bytes it claims. -/
theorem performBy_congr (p : Params) (w : ReqWord) {s s' : State}
    (h : ∀ i n, decode w = .ok i → i.bufn? = some n → n ≤ 64 → ∀ a, a < n → s.bufByte a = s'.bufByte a) :
    ∃ x, performBy (execWith p) w s = .next (s.deliver x) ∧ performBy (execWith p) w s' = .next (s'.deliver x) := by
  cases hd : decode w with
  | error e => exact ⟨_, performBy_of_error hd _ s, performBy_of_error hd _ s'⟩
  | ok i =>
    rw [performBy_of_ok hd, performBy_of_ok hd]
    exact execWith_congr p i fun n => h i n hd

/-- A request at the port whose word and claimed bytes are the same in two states gets the same response there (R36). -/
theorem stepWith_congr (p : Params) {s s' : State} {r r' : Request} {rest rest' : List Request}
    (hq : s.queue = r :: rest) (hq' : s'.queue = r' :: rest') (hreq : r.req = r'.req)
    (h : ∀ i n, decode r.req = .ok i → i.bufn? = some n → n ≤ 64 → ∀ a, a < n → s.bufByte a = s'.bufByte a) :
    ∃ x, stepWith p s = .next (performed s rest x) ∧ stepWith p s' = .next (performed s' rest' x) := by
  obtain ⟨x, hx, hx'⟩ := performBy_congr p r.req h
  exact ⟨x, stepWith_of_performBy hq hx, stepWith_of_performBy hq' (hreq ▸ hx')⟩

end Sys2Proof.Machine

namespace Sys2Proof

/-- Settles O7: with a request at the port the step is `onNext` of retiring it, and the word decodes. -/
theorem stepRunsTheDecodedOperation : Obligations.StepRunsTheDecodedOperation := by
  intro s r rest i hq hd
  refine ⟨State.pbuf_of_queue s r hq, ?_⟩
  rw [step, transact, transactBy_of_queue hq, performBy_of_ok hd]
  cases exec i s <;> rfl

/-- Settles O52: an operation delivers one response, and a reserved code does not decode. -/
theorem everyInstanceRunsTheDecodedOperation : Obligations.EveryInstanceRunsTheDecodedOperation := by
  intro p s r rest hq
  constructor
  · intro i hd
    obtain ⟨x, hx⟩ := execWith_delivers p i s
    exact ⟨x, hx, stepWith_of_performBy hq ((performBy_of_ok hd _ s).trans hx)⟩
  · intro hres
    exact stepWith_of_performBy hq (performBy_of_error (decode_of_reserved hres) _ s)

/-- Settles O53, from what a transaction takes from the state. -/
theorem equalTransactionsUnderEqualParameters : Obligations.EqualTransactionsUnderEqualParameters :=
  fun p _ _ _ _ _ _ hq hq' hreq h => stepWith_congr p hq hq' hreq h

/-- Settles O10: it is O53 at the parameters of Config. -/
theorem equalTransactionsHaveEqualResponses : Obligations.EqualTransactionsHaveEqualResponses := by
  intro s s' r r' rest rest' hq hq' hreq h
  rw [step_eq_stepWith, step_eq_stepWith]
  exact stepWith_congr Config.params hq hq' hreq h

end Sys2Proof
end

section
/-! SUPPORT. A request that supplies the bytes it claims has one response of its own, wherever it stands in the host's
order (10_state.md R22, R23; 70_reset_and_hazards.md R236). -/

open Sys2Proof Sys2Proof.Machine Sys2Proof.Spec

namespace Sys2Proof.Machine

/-- The response of the request `r` is `x` in every state that has `r` at the port. -/
def Request.AnsweredBy (r : Request) (x : Response) : Prop :=
  ∀ (s : State) (rest : List Request), s.queue = r :: rest → step s = .next (performed s rest x)

/-- States with the same supplied request at the port agree on every byte it claims: none of them is free (R235). -/
theorem Request.bufByte_eq_of_supplied {r : Request} (hr : r.supplied) {s s' : State} {rest rest' : List Request}
    (hq : s.queue = r :: rest) (hq' : s'.queue = r :: rest') {i : Instr} {n : Nat} (hd : decode r.req = .ok i)
    (hn : i.bufn? = some n) (hcap : n ≤ 64) {a : Nat} (ha : a < n) : s.bufByte a = s'.bufByte a := by
  obtain ⟨b, hb⟩ := Option.isSome_iff_exists.1 (hr i hd n hn hcap a ha)
  have hs : s.bufByte a = b := s.bufByte_of_read (by rw [s.pbuf_of_queue r hq, hb])
  have hs' : s'.bufByte a = b := s'.bufByte_of_read (by rw [s'.pbuf_of_queue r hq', hb])
  rw [hs, hs']

/-- A request that supplies the bytes it claims has a response of its own: the one an idle block gives it alone. -/
theorem Request.exists_answeredBy {r : Request} (hr : r.supplied) : ∃ x, r.AnsweredBy x := by
  have hcongr : ∀ (s s' : State) (rest rest' : List Request), s.queue = r :: rest → s'.queue = r :: rest' →
      ∃ x, step s = .next (performed s rest x) ∧ step s' = .next (performed s' rest' x) :=
    fun s s' rest rest' hq hq' => equalTransactionsHaveEqualResponses s s' r r rest rest' hq hq' rfl
      fun i n hd hn hcap a ha => Request.bufByte_eq_of_supplied hr hq hq' hd hn hcap ha
  obtain ⟨x, hx, -⟩ := hcongr { State.reset with queue := [r] } { State.reset with queue := [r] } [] [] rfl rfl
  refine ⟨x, fun s rest hq => ?_⟩
  obtain ⟨y, hy, hs⟩ := hcongr { State.reset with queue := [r] } s [] rest rfl hq
  have hxy : x = y := performed_inj.1 (Host.Outcome.next.inj (hx.symm.trans hy))
  rw [hs, hxy]

/-- Requests that supply the bytes they claim have responses of their own, one for each. -/
theorem exists_answers {qs : List Request} (h : ∀ r ∈ qs, r.supplied) : ∃ xs, List.Forall₂ Request.AnsweredBy qs xs := by
  induction qs with
  | nil => exact ⟨[], .nil⟩
  | cons r rest ih =>
    obtain ⟨x, hx⟩ := Request.exists_answeredBy (h r (by simp))
    obtain ⟨xs, hxs⟩ := ih fun q hq => h q (by simp [hq])
    exact ⟨x :: xs, .cons hx hxs⟩

/-- As many steps as there are requests deliver the requests' own responses in the host's order (R23, R236). -/
theorem run_queue {qs : List Request} {xs : List Response} (h : List.Forall₂ Request.AnsweredBy qs xs) {s : State}
    (hq : s.queue = qs) :
    Host.Core.run Sys2Proof.core qs.length s =
      .next ({ queue := [], responses := s.responses ++ xs, serial := s.serial + qs.length } : State) := by
  induction h generalizing s with
  | nil =>
    rw [List.length_nil, run_zero, List.append_nil, Nat.add_zero, ← hq]
  | @cons r x rest xs hx _ ih =>
    rw [List.length_cons, run_succ (hx s rest hq), ih (s := performed s rest x) rfl]
    simp [performed, Nat.add_comm, Nat.add_left_comm]

end Sys2Proof.Machine

namespace Sys2Proof

/-- Settles O11: every supplied request has a response of its own, and a run of the queue delivers them in order. -/
theorem responsesComeBackInRequestOrder : Obligations.ResponsesComeBackInRequestOrder := by
  intro s hsup
  obtain ⟨xs, hxs⟩ := exists_answers hsup
  refine ⟨xs, hxs.length_eq.symm, run_queue hxs rfl, fun k r hk => ?_⟩
  obtain ⟨hlt, rfl⟩ := List.getElem?_eq_some_iff.1 hk
  have hlt' : k < xs.length := hxs.length_eq ▸ hlt
  have hans : (s.queue[k]).AnsweredBy xs[k] := hxs.get hlt hlt'
  exact ⟨xs[k], List.getElem?_eq_getElem hlt', fun n => hans _ [] rfl⟩

end Sys2Proof
end

section
/-! SUPPORT. The payload buffer as memory (20_memory.md R40 to R52): what a read gives, what no operation changes, and
that the order of two transactions does not show in their responses. -/

open Sys2Proof Sys2Proof.Machine Sys2Proof.Spec

namespace Sys2Proof

/-- A buffer made of no more bytes than the capacity is in canonical form (R40, R49). -/
theorem Memory.wf_ofBytes {bytes : List Byte} (h : bytes.length ≤ Config.pbufCap) :
    (Memory.ofBytes bytes).wf = true := by
  have hcap : (Memory.ofBytes bytes).inCapacity = true := by
    refine List.all_eq_true.2 fun c hc => decide_eq_true ?_
    have hlt : c.1 < 0 + bytes.length := Memory.index_of_mem_ofBytesFrom hc
    omega
  rw [Memory.wf, Memory.ofBytes, Memory.rising_ofBytesFrom, Bool.true_and]
  exact hcap

namespace Machine

/-- Delivering a response leaves what `MemRead` gives as it was (R42). -/
@[simp] theorem memRead_deliver (bufn a : Nat) (s : State) (x : Response) :
    memRead bufn a (s.deliver x) = memRead bufn a s := rfl

/-- A byte that the request at the port placed in its buffer is the byte there. -/
theorem State.bufByte_of_ofBytes {s : State} {r : Request} {rest : List Request} {bytes : List Byte} {a : Nat}
    (hq : s.queue = r :: rest) (hr : r.pbuf = Memory.ofBytes bytes) (ha : a < bytes.length) :
    s.bufByte a = bytes[a] :=
  s.bufByte_of_read (by rw [s.pbuf_of_queue r hq, hr, Memory.read_ofBytes, List.getElem?_eq_getElem ha])

/-- Presenting a request with a canonical buffer keeps every queued buffer canonical. -/
theorem State.present_buffers {s : State} {r : Request} (h : ∀ q ∈ s.queue, q.pbuf.wf = true)
    (hr : r.pbuf.wf = true) : ∀ q ∈ (s.present r).queue, q.pbuf.wf = true := by
  intro q hq
  obtain hq | hq := List.mem_append.1 hq
  · exact h q hq
  · rw [List.mem_singleton.1 hq]
    exact hr

/-- Presenting a request with a canonical buffer keeps the invariant. -/
theorem State.Inv.present {s : State} (h : s.Inv) {r : Request} (hr : r.pbuf.wf = true) : (s.present r).Inv :=
  ⟨h.responses, State.present_buffers h.buffers hr⟩

/-- A reset during a transaction keeps the invariant: it delivers nothing and only drops a request (log entry 9). -/
theorem State.Inv.resetInProgress {s : State} (h : s.Inv) : s.resetInProgress.Inv :=
  ⟨h.responses, fun q hq => h.buffers q (List.mem_of_mem_tail hq)⟩

/-- An operation without a buffer has one response for all states, the one that it delivers after reset (R43). -/
theorem execWith_response_of_no_buffer (p : Params) {i : Instr} (hi : i.bufn? = none) :
    ∃ x, ∀ s, execWith p i s = .next (s.deliver x) := by
  obtain ⟨x, hx⟩ := execWith_delivers p i State.reset
  refine ⟨x, fun s => ?_⟩
  obtain ⟨y, hy, hs⟩ := execWith_congr p i (s := State.reset) (s' := s) fun n hn => by
    rw [hi] at hn
    cases hn
  have hxy : x = y := deliver_inj.1 (Host.Outcome.next.inj (hx.symm.trans hy))
  rw [hs, hxy]

/-- Two steps deliver the own responses of the first two requests, in the order of the requests. -/
theorem run_two {a b : Request} {x y : Response} (ha : a.AnsweredBy x) (hb : b.AnsweredBy y) {s : State}
    {rest : List Request} (hq : s.queue = a :: b :: rest) :
    Host.Core.run Sys2Proof.core 2 s =
      .next ({ queue := rest, responses := s.responses ++ [x, y], serial := s.serial + 2 } : State) := by
  rw [run_succ (ha s (b :: rest) hq), run_succ (hb _ rest rfl), run_zero]
  simp [performed]

end Machine

/-- Settles O13: each of the two requests has a response of its own, whichever of them comes first. -/
theorem transactionsCommute : Obligations.TransactionsCommute := by
  intro s a b rest hq ha hb
  obtain ⟨x, hx⟩ := Request.exists_answeredBy ha
  obtain ⟨y, hy⟩ := Request.exists_answeredBy hb
  exact ⟨x, y, run_two hx hy hq, run_two hy hx rfl⟩

/-- Settles O14: every operation delivers one response, and delivering changes the responses alone. -/
theorem operationsOnlyDeliverOneResponse : Obligations.OperationsOnlyDeliverOneResponse := by
  intro i s
  obtain ⟨x, hx⟩ := execWith_delivers Config.params i s
  refine ⟨s.deliver x, exec_eq_execWith ▸ hx, ⟨x, s.deliver_responses x⟩, s.deliver_queue x, s.deliver_serial x,
    s.deliver_bufByte x, fun bufn a => memRead_deliver bufn a s x, fun a => ?_⟩
  rw [s.deliver_pbuf x]

/-- Settles O15: two states cannot differ in a byte that the operation claims, because it claims none. -/
theorem operationsWithoutBufferReadNoByte : Obligations.OperationsWithoutBufferReadNoByte := by
  intro i hi
  rw [exec_eq_execWith]
  exact execWith_response_of_no_buffer Config.params hi

/-- Settles O37: below `bufn` the read is of a byte that the host placed, and from `bufn` on there is none. -/
theorem memReadGivesTheHostsByte : Obligations.MemReadGivesTheHostsByte := by
  rintro bytes _ a s r rest hq hr rfl
  by_cases ha : a < bytes.length
  · rw [memRead_of_lt s ha, State.bufByte_of_ofBytes hq hr ha, List.getElem?_eq_getElem ha]
  · have hge : bytes.length ≤ a := Nat.le_of_not_lt ha
    rw [memRead_of_ge s hge, List.getElem?_eq_none hge]

/-- Settles O50: neither move of the host delivers a response, and the one request that comes in brings a canonical
buffer. -/
theorem presentingKeepsTheInvariant : Obligations.PresentingKeepsTheInvariant :=
  ⟨fun _ _ hinv hr => ⟨hinv.present hr, hinv.resetInProgress⟩, fun _ hlen => Memory.wf_ofBytes hlen⟩

end Sys2Proof
end

section
/-! SUPPORT. The request formats (30_encoding.md R60 to R70): which operation a word carries, said once for each format;
that the encoder writes a word that carries its operation, and what it writes for the operation that a word carries. -/

open Sys2Proof Sys2Proof.Machine Sys2Proof.Spec

namespace Sys2Proof

/-- The word `w` carries the operation: its low four bits are the code and every operand is the field that the format
names (R61 to R70). -/
def Instr.CarriedBy (w : ReqWord) : Instr → Prop
  | .hdec handle => opOf w = 0x1#4 ∧ field w 4 16 = handle
  | .henc wide devtype chan => opOf w = 0x2#4 ∧ bit w 4 = wide ∧ field w 5 16 = devtype ∧ field w 21 8 = chan
  | .hfmt handle isfd => opOf w = 0x3#4 ∧ field w 4 16 = handle ∧ bit w 20 = isfd
  | .mcls flags => opOf w = 0x4#4 ∧ field w 4 8 = flags
  | .dlcl dlc => opOf w = 0x5#4 ∧ field w 4 4 = dlc
  | .tscmb micros millis overflow =>
      opOf w = 0x6#4 ∧ field w 4 32 = micros ∧ field w 36 32 = millis ∧ field w 68 32 = overflow
  | .tsfmt ts => opOf w = 0x7#4 ∧ field w 4 64 = ts
  | .frn id flags length ts bufn =>
      opOf w = 0x8#4 ∧ field w 4 32 = id ∧ field w 36 8 = flags ∧ field w 44 8 = length ∧ field w 52 64 = ts ∧
        field w 116 7 = bufn
  | .frc id flags len micros millis overflow bufn =>
      opOf w = 0x9#4 ∧ field w 4 32 = id ∧ field w 36 8 = flags ∧ field w 44 8 = len ∧ field w 52 32 = micros ∧
        field w 84 32 = millis ∧ field w 116 32 = overflow ∧ field w 148 7 = bufn
  | .frf id flags dlc ts bufn =>
      opOf w = 0xA#4 ∧ field w 4 32 = id ∧ field w 36 8 = flags ∧ field w 44 4 = dlc ∧ field w 52 64 = ts ∧
        field w 116 7 = bufn

/-- An operation code with a known number. -/
theorem opOf_eq {w : ReqWord} {op : BitVec 4} (h : (opOf w).toNat = op.toNat) : opOf w = op := BitVec.eq_of_toNat_eq h

/-- The decoder answers the operation that the word carries (R76). -/
theorem decode_of_carriedBy {w : ReqWord} {i : Instr} (h : i.CarriedBy w) : decode w = .ok i := by
  cases i <;> (simp only [Instr.CarriedBy] at h; simp [decode, h])

/-- What the decoder answers, the word carries. -/
theorem carriedBy_of_decode {w : ReqWord} {i : Instr} (h : decode w = .ok i) : i.CarriedBy w := by
  unfold decode at h
  split at h
  case h_11 => cases h
  all_goals
    cases h
    simp only [Instr.CarriedBy, and_self, and_true]
    exact opOf_eq ‹_›

/-- The encoding of an operation carries it: no field reaches into another one, and none leaves the word. -/
theorem carriedBy_encode (i : Instr) : i.CarriedBy (encode i) := by
  cases i <;> simp [Instr.CarriedBy, encode, opOf]

/-- Settles O3: the encoding carries the operation, and the decoder answers what a word carries. -/
theorem decodeInvertsEncode : Obligations.DecodeInvertsEncode :=
  fun i => decode_of_carriedBy (carriedBy_encode i)

end Sys2Proof
end

section
/-! SUPPORT. The bits of the request word that a format uses (30_encoding.md R60, R77, R78): the fields as numbers, and
that the fields of a format cover exactly its used bits. -/

open Sys2Proof Sys2Proof.Machine Sys2Proof.Spec

namespace Sys2Proof

/-- A field as a number (R9). -/
theorem field_eq_ofNat (w : ReqWord) (lo width : Nat) : field w lo width = BitVec.ofNat width (w.toNat / 2 ^ lo) := by
  rw [field, BitVec.extractLsb', Nat.shiftRight_eq_div_pow]

/-- A bit as a number (R9). -/
theorem bit_eq_decide (w : ReqWord) (i : Nat) : bit w i = decide (w.toNat / 2 ^ i % 2 = 1) := by
  rw [bit, BitVec.getLsbD, Nat.testBit_eq_decide_div_mod_eq]

/-- Settles O2: a word with the code of a format carries the operation whose operands are its fields. -/
theorem everyFormatReadsItsFields : Obligations.EveryFormatReadsItsFields := by
  intro w
  have hop : ∀ op : BitVec 4, w.toNat % 16 = op.toNat → opOf w = op := fun op h => opOf_eq ((opOf_toNat w).trans h)
  refine ⟨fun h => ?_, fun h => ?_, fun h => ?_, fun h => ?_, fun h => ?_, fun h => ?_, fun h => ?_, fun h => ?_,
    fun h => ?_, fun h => ?_⟩
  all_goals
    refine decode_of_carriedBy ⟨hop _ h, ?_⟩
    simp only [field_eq_ofNat, bit_eq_decide, and_self]

/-- The bits `lo` to `lo + n - 1` of the word where they stand, and 0 elsewhere. -/
def cut (w : ReqWord) (lo n : Nat) : ReqWord := place lo (field w lo n)

/-- A field that is put back where it came from. -/
theorem place_field (w : ReqWord) (lo n : Nat) : place lo (field w lo n) = cut w lo n := rfl

/-- The code of a word put back where it came from. -/
theorem place_code {w : ReqWord} {op : BitVec 4} (h : opOf w = op) : place 0 op = cut w 0 4 := by rw [← h]; rfl

/-- A bit that is put back where it came from. -/
theorem place_bit (w : ReqWord) (i : Nat) : place i (BitVec.ofBool (bit w i)) = cut w i 1 := by
  have hbit : BitVec.ofBool (bit w i) = field w i 1 := by
    ext k hk
    obtain rfl : k = 0 := by omega
    simp [getElem_field, bit]
  rw [hbit, place_field]

/-- A bit of a cut. -/
theorem getLsbD_cut (w : ReqWord) {lo n : Nat} (h : lo + n ≤ 160) (k : Nat) :
    (cut w lo n).getLsbD k = (w.getLsbD k && decide (lo ≤ k ∧ k < lo + n)) := by
  rw [cut, getLsbD_place_field w lo n k h, Bool.and_comm]

/-- Two neighbouring cuts are one cut. -/
theorem cut_or_cut (w : ReqWord) {lo n lo' n' : Nat} (hlo : lo + n = lo') (h : lo' + n' ≤ 160) :
    cut w lo n ||| cut w lo' n' = cut w lo (n + n') := by
  refine BitVec.eq_of_getLsbD_eq fun k _ => ?_
  have hrange : (lo ≤ k ∧ k < lo + n ∨ lo' ≤ k ∧ k < lo' + n') ↔ lo ≤ k ∧ k < lo + (n + n') := by omega
  rw [BitVec.getLsbD_or, getLsbD_cut w (by omega), getLsbD_cut w h, getLsbD_cut w (by omega), ← Bool.and_or_distrib_left,
    ← Bool.decide_or, decide_eq_decide.2 hrange]

/-- The encoding of the operation that a word carries is the word cut after the highest used bit of its format, for FRF
without the ignored bits 51:48 (R61 to R70). -/
theorem encode_of_carriedBy {w : ReqWord} {i : Instr} (h : i.CarriedBy w) :
    encode i =
      if opOf w = 0xA#4 then cut w 0 48 ||| cut w 52 71 else cut w 0 (highestUsedBit (opOf w) + 1) := by
  cases i with
  | hdec handle =>
    obtain ⟨hop, rfl⟩ := h
    simp [encode, place_code hop, place_field, cut_or_cut, hop, highestUsedBit]
  | henc wide devtype chan =>
    obtain ⟨hop, rfl, rfl, rfl⟩ := h
    simp [encode, place_code hop, place_field, place_bit, cut_or_cut, hop, highestUsedBit]
  | hfmt handle isfd =>
    obtain ⟨hop, rfl, rfl⟩ := h
    simp [encode, place_code hop, place_field, place_bit, cut_or_cut, hop, highestUsedBit]
  | mcls flags =>
    obtain ⟨hop, rfl⟩ := h
    simp [encode, place_code hop, place_field, cut_or_cut, hop, highestUsedBit]
  | dlcl dlc =>
    obtain ⟨hop, rfl⟩ := h
    simp [encode, place_code hop, place_field, cut_or_cut, hop, highestUsedBit]
  | tscmb micros millis overflow =>
    obtain ⟨hop, rfl, rfl, rfl⟩ := h
    simp [encode, place_code hop, place_field, cut_or_cut, hop, highestUsedBit]
  | tsfmt ts =>
    obtain ⟨hop, rfl⟩ := h
    simp [encode, place_code hop, place_field, cut_or_cut, hop, highestUsedBit]
  | frn id flags length ts bufn =>
    obtain ⟨hop, rfl, rfl, rfl, rfl, rfl⟩ := h
    simp [encode, place_code hop, place_field, cut_or_cut, hop, highestUsedBit]
  | frc id flags len micros millis overflow bufn =>
    obtain ⟨hop, rfl, rfl, rfl, rfl, rfl, rfl, rfl⟩ := h
    simp [encode, place_code hop, place_field, cut_or_cut, hop, highestUsedBit]
  | frf id flags dlc ts bufn =>
    obtain ⟨hop, rfl, rfl, rfl, rfl, rfl⟩ := h
    have hbufn : cut w 52 64 ||| cut w 116 7 = cut w 52 71 := cut_or_cut w rfl (by decide)
    simp [encode, place_code hop, place_field, cut_or_cut, hop, BitVec.or_assoc, hbufn]

/-- No format uses a bit above the word. -/
theorem highestUsedBit_lt (op : BitVec 4) : highestUsedBit op < 160 := by
  revert op
  decide

/-- The bits that a format uses, in numbers. -/
theorem usesBit_iff (op : BitVec 4) (k : Nat) :
    usesBit op k = true ↔ k ≤ highestUsedBit op ∧ (op = 0xA#4 → k < 48 ∨ 51 < k) := by
  by_cases hfrf : op = 0xA#4 <;> simp [usesBit, hfrf]

/-- The encoding of the operation that a word carries has the used bits of the word, and 0 in the ignored ones (R78). -/
theorem getLsbD_encode_of_carriedBy {w : ReqWord} {i : Instr} (h : i.CarriedBy w) (k : Nat) :
    (encode i).getLsbD k = (w.getLsbD k && usesBit (opOf w) k) := by
  rw [encode_of_carriedBy h]
  by_cases hfrf : opOf w = 0xA#4
  · have hlast : highestUsedBit (opOf w) = 122 := by rw [hfrf]; rfl
    rw [if_pos hfrf, BitVec.getLsbD_or, getLsbD_cut w (by decide), getLsbD_cut w (by decide), ← Bool.and_or_distrib_left,
      ← Bool.decide_or]
    congr 1
    rw [Bool.eq_iff_iff, decide_eq_true_eq, usesBit_iff, hlast, forall_prop_of_true hfrf]
    omega
  · have hfits := highestUsedBit_lt (opOf w)
    rw [if_neg hfrf, getLsbD_cut w (by omega)]
    congr 1
    rw [Bool.eq_iff_iff, decide_eq_true_eq, usesBit_iff, forall_prop_of_false hfrf, and_true]
    omega

/-- Settles O4, by what the encoder writes for the operation that a word carries. -/
theorem encodeKeepsExactlyTheUsedBits : Obligations.EncodeKeepsExactlyTheUsedBits :=
  fun _ _ hd k _ => getLsbD_encode_of_carriedBy (carriedBy_of_decode hd) k

/-- Settles O1: the eleven words are fixed, and the decoder is run on each. -/
theorem specWordsDecode : Obligations.SpecWordsDecode :=
  ⟨rfl, rfl, rfl, rfl, rfl, rfl, rfl, rfl, rfl, rfl, rfl⟩

end Sys2Proof
end

section
/-! SUPPORT. Ignored bits have no effect (30_encoding.md R77, R78): which words are rejected, and that the used bits
settle the decoding and with it the whole step. -/

open Sys2Proof Sys2Proof.Machine Sys2Proof.Spec

namespace Sys2Proof

/-- The decoder rejects a word exactly when its code is none of the ten, and names the code (R77). -/
theorem decode_eq_error_iff {w : ReqWord} {e : DecodeError} :
    decode w = .error e ↔ e = .opReserved (opOf w) ∧ ¬ (1 ≤ (opOf w).toNat ∧ (opOf w).toNat ≤ 10) := by
  constructor
  · intro h
    unfold decode at h
    split at h
    case h_11 =>
      cases h
      refine ⟨rfl, ?_⟩
      simp only [imp_false] at *
      omega
    all_goals cases h
  · rintro ⟨rfl, hres⟩
    refine decode_of_reserved ?_
    rw [← opOf_toNat]
    omega

/-- The decoder answers an operation exactly when the code is one of the ten (R76, R77). -/
theorem exists_decode_eq_ok_iff (w : ReqWord) :
    (∃ i, decode w = .ok i) ↔ 1 ≤ (opOf w).toNat ∧ (opOf w).toNat ≤ 10 := by
  cases hd : decode w with
  | error e => simpa using (decode_eq_error_iff.1 hd).2
  | ok i =>
    refine iff_of_true ⟨i, rfl⟩ ?_
    by_contra hres
    have herr := decode_eq_error_iff.2 ⟨rfl, hres⟩
    rw [hd] at herr
    cases herr

/-- Every format uses the bits of the code. -/
theorem usesBit_code (op : BitVec 4) {k : Nat} (h : k < 4) : usesBit op k = true := by
  have hcode : 3 ≤ highestUsedBit op := by
    revert op
    decide
  exact (usesBit_iff op k).2 ⟨by omega, fun _ => .inl (by omega)⟩

/-- The words agree on the bits that the format of the first one uses. -/
def AgreeOnUsedBits (w w' : ReqWord) : Prop :=
  ∀ k, k < 160 → usesBit (opOf w) k = true → w.getLsbD k = w'.getLsbD k

section
variable {w w' : ReqWord} (h : AgreeOnUsedBits w w')
include h

/-- Words that agree on the used bits have the same code. -/
theorem AgreeOnUsedBits.opOf_eq : opOf w = opOf w' := by
  ext k hk
  simpa [opOf, getElem_field] using h k (by omega) (usesBit_code _ hk)

/-- Operations that two words carry are equal when the words agree on the used bits: their encodings are, and decoding
inverts encoding. -/
theorem AgreeOnUsedBits.carried_eq {i i' : Instr} (hi : i.CarriedBy w) (hi' : i'.CarriedBy w') : i = i' := by
  have henc : encode i = encode i' := by
    refine BitVec.eq_of_getLsbD_eq fun k hk => ?_
    rw [getLsbD_encode_of_carriedBy hi, getLsbD_encode_of_carriedBy hi', ← h.opOf_eq]
    cases hu : usesBit (opOf w) k with
    | false => simp
    | true => rw [h k hk hu]
  have hok : decode (encode i) = .ok i' := henc ▸ decodeInvertsEncode i'
  exact Except.ok.inj ((decodeInvertsEncode i).symm.trans hok)

/-- The used bits settle the decoding (R78). -/
theorem AgreeOnUsedBits.decode_eq : decode w = decode w' := by
  cases hd : decode w with
  | error e =>
    have hres := decode_eq_error_iff.1 hd
    rw [h.opOf_eq] at hres
    exact (decode_eq_error_iff.2 hres).symm
  | ok i =>
    have hcode := (exists_decode_eq_ok_iff w).1 ⟨i, hd⟩
    rw [h.opOf_eq] at hcode
    obtain ⟨i', hd'⟩ := (exists_decode_eq_ok_iff w').2 hcode
    rw [hd', h.carried_eq (carriedBy_of_decode hd) (carriedBy_of_decode hd')]

end

/-- Words that decode alike are performed alike. -/
theorem performBy_eq_of_decode_eq {w w' : ReqWord} (h : decode w = decode w')
    (run : Instr → State → Host.Outcome State Fault Refusal) (s : State) : performBy run w s = performBy run w' s := by
  rw [performBy, performBy, h]

/-- A step takes what the request word decodes to, and nothing else of the word (R21). -/
theorem step_eq_of_decode_eq {w w' : ReqWord} (h : decode w = decode w') (m : Memory) (rest : List Request)
    (xs : List Response) (n : Nat) :
    step { queue := { req := w, pbuf := m } :: rest, responses := xs, serial := n } =
      step { queue := { req := w', pbuf := m } :: rest, responses := xs, serial := n } := by
  obtain ⟨x, hx, hx'⟩ := performBy_congr Config.params w
    (s := { queue := { req := w, pbuf := m } :: rest, responses := xs, serial := n })
    (s' := { queue := { req := w', pbuf := m } :: rest, responses := xs, serial := n }) fun _ _ _ _ _ _ _ => rfl
  rw [performBy_eq_of_decode_eq h] at hx'
  rw [step_eq_stepWith, step_eq_stepWith, stepWith_of_performBy rfl hx, stepWith_of_performBy rfl hx']
  rfl

/-- Settles O5: the used bits settle the decoding, and the decoder rejects the words that it does not answer. -/
theorem ignoredBitsHaveNoEffect : Obligations.IgnoredBitsHaveNoEffect := by
  refine ⟨fun w w' h => step_eq_of_decode_eq (AgreeOnUsedBits.decode_eq h), exists_decode_eq_ok_iff, fun w hno => ?_⟩
  rw [exists_decode_eq_ok_iff] at hno
  exact decode_eq_error_iff.2 ⟨rfl, hno⟩

end Sys2Proof
end

section
/-! SUPPORT. The texts of a response (00_scope.md R13, 30_encoding.md R71): how long each of them can be, and that its
characters are those a text may hold. -/

open Sys2Proof Sys2Proof.Machine Sys2Proof.Spec

namespace Sys2Proof.Machine

/-- The text has at most `n` characters, and each of them may stand in a text of CANMP (R13). -/
def TextWithin (n : Nat) (t : Text) : Prop := t.length ≤ n ∧ ∀ c ∈ t, legalChar c = true

/-- A text written out that a check accepts. -/
theorem textWithin_of_check {n : Nat} {t : Text} (h : (decide (t.length ≤ n) && t.all legalChar) = true) :
    TextWithin n t := by
  rw [Bool.and_eq_true, decide_eq_true_eq, List.all_eq_true] at h
  exact h

theorem textWithin_nil (n : Nat) : TextWithin n [] := ⟨Nat.zero_le n, by simp⟩

theorem TextWithin.mono {m n : Nat} {t : Text} (h : TextWithin m t) (hmn : m ≤ n) : TextWithin n t :=
  ⟨h.1.trans hmn, h.2⟩

theorem TextWithin.append {m n : Nat} {t u : Text} (ht : TextWithin m t) (hu : TextWithin n u) :
    TextWithin (m + n) (t ++ u) :=
  ⟨by rw [List.length_append]; exact Nat.add_le_add ht.1 hu.1, List.forall_mem_append.2 ⟨ht.2, hu.2⟩⟩

/-- Digits and uppercase letters may stand in a text (R13). -/
theorem legalChar_of_digit {c : Byte} (h : 0x30 ≤ c.toNat ∧ c.toNat ≤ 0x39) : legalChar c = true := by
  simp [legalChar, BitVec.le_def, h]

theorem legalChar_of_letter {c : Byte} (h : 0x41 ≤ c.toNat ∧ c.toNat ≤ 0x5A) : legalChar c = true := by
  simp [legalChar, BitVec.le_def, h]

/-- A number below `10 ^ k` in decimal. -/
theorem textWithin_dec {n k : Nat} (hk : 0 < k) (h : n < 10 ^ k) : TextWithin k (dec n) :=
  ⟨dec_length_le hk h, fun _ hc => legalChar_of_digit (dec_chars hc)⟩

/-- A number below `16 ^ k` in hexadecimal, padded to no more than `k` characters. -/
theorem textWithin_hex {width n k : Nat} (hk : 0 < k) (hw : width ≤ k) (h : n < 16 ^ k) : TextWithin k (hex width n) := by
  refine ⟨hex_length_le hk hw h, fun c hc => ?_⟩
  obtain hdigit | ⟨hlo, hhi⟩ := hex_chars hc
  · exact legalChar_of_digit hdigit
  · exact legalChar_of_letter ⟨hlo, by omega⟩

/-- The device type of a handle has 8 bits at most (R100). -/
theorem decodeHandle_devtype_lt (handle : BitVec 16) : (decodeHandle handle).1.toNat < 256 := by
  have hw := handle.isLt
  rw [decodeHandle]
  split_ifs with hnarrow
  · have hsmall : handle.toNat < 256 := hnarrow
    rw [BitVec.toNat_ushiftRight, Nat.shiftRight_eq_div_pow]
    omega
  · rw [BitVec.toNat_ushiftRight, Nat.shiftRight_eq_div_pow]
    omega

/-- The text of a handle (R104): two numbers of three digits, the mark of FD, and four hexadecimal digits at most. -/
theorem textWithin_handleText (handle : BitVec 16) (isfd : Bool) : TextWithin 18 (handleText handle isfd) := by
  have hdev : TextWithin 3 (dec (decodeHandle handle).1.toNat) :=
    textWithin_dec (by decide) (by have := decodeHandle_devtype_lt handle; omega)
  have hchan : TextWithin 3 (dec (decodeHandle handle).2.toNat) :=
    textWithin_dec (by decide) (by have := (decodeHandle handle).2.isLt; omega)
  have hhex : TextWithin 4 (hex 2 handle.toNat) := textWithin_hex (by decide) (by decide) handle.isLt
  have hfd : TextWithin 3 (if isfd then ascii [':', 'F', 'D'] else []) := by
    cases isfd <;> exact textWithin_of_check rfl
  exact hdev.append hfd |>.append (textWithin_of_check (n := 1) rfl) |>.append hchan
    |>.append (textWithin_of_check (n := 2) rfl) |>.append hhex |>.append (textWithin_of_check (n := 2) rfl)

/-- The type label (R123): the longest is that of an extended FD variant with all three tokens. -/
theorem textWithin_typeLabel (c : Category) : TextWithin 18 (typeLabel c) := by
  have hfd : ∀ ext fd brs esi : Bool, TextWithin 18 (typeLabel { kind := .fdVariant, ext, fd, brs, esi }) := by
    intro ext fd brs esi
    have hbase : TextWithin 3 (baseLabel ext) := by cases ext <;> exact textWithin_of_check rfl
    have htoken : ∀ (b : Bool) (name : List Char), TextWithin (name.length + 1) (ascii (' ' :: name)) →
        TextWithin (name.length + 1) (token b name) := by
      intro b name h
      cases b
      · exact textWithin_nil _
      · exact h
    exact hbase.append (textWithin_of_check (n := 2) rfl) |>.append (htoken fd _ (textWithin_of_check rfl))
      |>.append (htoken brs _ (textWithin_of_check rfl)) |>.append (htoken esi _ (textWithin_of_check rfl))
      |>.append (textWithin_of_check (n := 2) rfl)
  obtain ⟨kind, ext, fd, brs, esi, amb⟩ := c
  cases kind
  case fdVariant => exact hfd ext fd brs esi
  all_goals exact textWithin_of_check rfl

/-- Rounding adds one tenth at most (R156). -/
theorem tenthsOf_le (mode : FmtRound) (ts : Nat) : tenthsOf mode ts ≤ ts / 100 + 1 := by
  cases mode <;> simp only [tenthsOf, roundUp] <;> split_ifs <;> omega

/-- The time text of a 64-bit count (R156). -/
theorem textWithin_tenthsText (mode : FmtRound) (ts : BitVec 64) : TextWithin 19 (tenthsText (tenthsOf mode ts.toNat)) := by
  have hle := tenthsOf_le mode ts.toNat
  have hlt := ts.isLt
  have hint : TextWithin 17 (dec (tenthsOf mode ts.toNat / 10)) := textWithin_dec (by decide) (by omega)
  have htenth : TextWithin 1 (dec (tenthsOf mode ts.toNat % 10)) := textWithin_dec (by decide) (by omega)
  exact hint.append (textWithin_of_check (n := 1) rfl) |>.append htenth

/-- The identifier label of a 32-bit identifier (R174). -/
theorem textWithin_idLabel (m : Masks) (flags : BitVec 8) (id : BitVec 32) : TextWithin 9 (idLabel m flags id) := by
  have hlt : id.toNat < 16 ^ 8 := id.isLt
  have hid : TextWithin 8 (if hasFlag flags m.extended then hex 8 id.toNat else hex 3 id.toNat) := by
    split_ifs
    · exact textWithin_hex (by decide) (by decide) hlt
    · exact textWithin_hex (by decide) (by decide) hlt
  exact hid.append (textWithin_of_check (n := 1) rfl)

/-- Payload bytes as text (R176). -/
theorem textWithin_bytesText (bytes : List Byte) : TextWithin (3 * bytes.length - 1) (bytesText bytes) := by
  refine ⟨bytesText_length_le bytes, ?_⟩
  have hbyte : ∀ b : Byte, TextWithin 2 (hex 2 b.toNat) := fun b => textWithin_hex (by decide) (by decide) b.isLt
  induction bytes with
  | nil => simp [bytesText]
  | cons b rest ih =>
    cases rest with
    | nil => exact (hbyte b).2
    | cons c rest =>
      have hsep : TextWithin 1 (ascii [' ']) := textWithin_of_check rfl
      exact List.forall_mem_append.2 ⟨((hbyte b).append hsep).2, ih⟩

/-- The data label of a frame of at most 64 bytes (R176). -/
theorem textWithin_dataLabel (rtr : Bool) {bytes : List Byte} (h : bytes.length ≤ 64) :
    TextWithin 191 (if rtr then remoteRequest else bytesText bytes) := by
  cases rtr with
  | true => exact textWithin_of_check rfl
  | false => exact (textWithin_bytesText bytes).mono (by omega)

end Sys2Proof.Machine
end

section
/-! SUPPORT. Every step keeps the invariant (30_encoding.md R71, 10_state.md R32): the results that each operation
delivers are legal. -/

open Sys2Proof Sys2Proof.Machine Sys2Proof.Spec

namespace Sys2Proof.Machine

/-- The relations between the Category fields (R32, R124). -/
structure Category.Consistent (c : Category) : Prop where
  tokens : c.kind ≠ .fdVariant → c.fd = false ∧ c.brs = false ∧ c.esi = false
  ext    : c.kind ≠ .fdVariant → c.ext = decide (c.kind = .extended ∨ c.kind = .extendedRTR)
  amb    : c.amb = true → c.kind = .standardRTR ∨ c.kind = .extendedRTR

/-- Classification gives a consistent Category under every mask layout (R121). -/
theorem classify_consistent (m : Masks) (flags : BitVec 8) : (classify m flags).Consistent := by
  rw [classify]
  split_ifs with hstatus herrframe hrtr habove
  · exact ⟨by simp, by simp, by simp⟩
  · exact ⟨by simp, by simp, by simp⟩
  · cases hasFlag flags m.extended <;> exact ⟨by simp, by simp, by simp⟩
  · exact ⟨by simp, by simp, by simp⟩
  · cases hasFlag flags m.extended <;> exact ⟨by simp, by simp, by simp⟩

/-- The characters of the six texts. -/
theorem Results.chars_iff (r : Results) :
    (∀ t ∈ r.texts, ∀ c ∈ t, legalChar c = true) ↔
      (∀ c ∈ r.handleTxt, legalChar c = true) ∧ (∀ c ∈ r.typeTxt, legalChar c = true) ∧
      (∀ c ∈ r.idTxt, legalChar c = true) ∧ (∀ c ∈ r.lenTxt, legalChar c = true) ∧
      (∀ c ∈ r.timeTxt, legalChar c = true) ∧ (∀ c ∈ r.dataTxt, legalChar c = true) := by
  simp [Results.texts]

/-- All fields 0 and all texts empty is legal: the results of an exception (R209). -/
theorem Results.legal_default : ({} : Results).Legal := by
  constructor <;> simp [Results.texts]

/-- Writing the Category and the type label keeps results legal (R173). -/
theorem Results.Legal.withCategory {r : Results} (h : r.Legal) (m : Masks) (flags : BitVec 8) :
    (r.withCategory m flags).Legal := by
  have hcat := classify_consistent m flags
  have htype := textWithin_typeLabel (classify m flags)
  obtain ⟨hhandle, -, hid, hlen, htime, hdata⟩ := r.chars_iff.1 h.chars
  exact
    { h with
      typeTxt := htype.1
      chars := (Results.chars_iff _).2 ⟨hhandle, htype.2, hid, hlen, htime, hdata⟩
      tokens := hcat.tokens
      ext := hcat.ext
      amb := hcat.amb }

/-- Writing the time fields keeps results legal (R175). -/
theorem Results.Legal.withTime {r : Results} (h : r.Legal) (mode : FmtRound) (ts : BitVec 64) :
    (r.withTime mode ts).Legal := by
  have hle := tenthsOf_le mode ts.toNat
  have hlt := ts.isLt
  have htext := textWithin_tenthsText mode ts
  have hint : (BitVec.ofNat 64 (tenthsOf mode ts.toNat / 10)).toNat = tenthsOf mode ts.toNat / 10 :=
    Nat.mod_eq_of_lt (by omega)
  have htenth : (BitVec.ofNat 4 (tenthsOf mode ts.toNat % 10)).toNat = tenthsOf mode ts.toNat % 10 :=
    Nat.mod_eq_of_lt (by omega)
  obtain ⟨hhandle, htype, hid, hlen, -, hdata⟩ := r.chars_iff.1 h.chars
  exact
    { h with
      msTenth := by
        simp only [Results.withTime, htenth]
        omega
      timeTxt := htext.1
      chars := (Results.chars_iff _).2 ⟨hhandle, htype, hid, hlen, htext.2, hdata⟩
      time := .inr (by simp only [Results.withTime, hint, htenth, tenthsText]) }

/-- The rendered frame is legal when its length is a frame length (R170, R172). -/
theorem frameResults_legal (p : Params) (id : BitVec 32) (flags : BitVec 8) {length : BitVec 8}
    (hlength : length.toNat ≤ 64) (ts : BitVec 64) (wrap : Bool) (s : State) :
    (frameResults p id flags length ts wrap s).Legal := by
  have hid := textWithin_idLabel p.masks flags id
  have hlen : TextWithin 2 (dec length.toNat) := textWithin_dec (by decide) (by omega)
  have hdata := textWithin_dataLabel (hasFlag flags p.masks.rtr) (bytes := (List.range length.toNat).map s.bufByte)
    (by simpa using hlength)
  refine Results.Legal.withTime (Results.Legal.withCategory ?_ p.masks flags) p.fmtRound ts
  exact
    { Results.legal_default with
      length := hlength
      idTxt := hid.1
      lenTxt := hlen.1
      dataTxt := hdata.1
      chars := (Results.chars_iff _).2 ⟨by simp, by simp, hid.2, hlen.2, by simp, hdata.2⟩ }

/-- The outcome is a next state with one legal response delivered. -/
def DeliversLegal (s : State) (o : Host.Outcome State Fault Refusal) : Prop :=
  ∃ x : Response, o = .next (s.deliver x) ∧ x.Legal

/-- Completing with legal results. -/
theorem complete_deliversLegal {r : Results} (h : r.Legal) (s : State) : DeliversLegal s (complete r s) :=
  ⟨.ok r, complete_eq r s, h⟩

/-- Raising: the results of an exception are 0 and empty. -/
theorem raise_deliversLegal (c : Cause) (s : State) : DeliversLegal s (raise c s) :=
  ⟨.exception c, raise_eq c s, Results.legal_default⟩

/-- A frame operation that completes has checked its length. -/
theorem checkAndRender_deliversLegal (p : Params) (maxLength : Nat) (id : BitVec 32) (flags length : BitVec 8)
    (ts : BitVec 64) (bufn : BitVec 7) (wrap : Bool) (s : State) :
    DeliversLegal s (checkAndRender p maxLength id flags length ts bufn wrap s) := by
  obtain ⟨c, -, ho⟩ | ⟨hc, ho⟩ := checkAndRender_cases p maxLength id flags length ts bufn wrap s
  · rw [ho]
    exact raise_deliversLegal c s
  · obtain ⟨hcap, -, hle⟩ := checkFrame_eq_none.1 hc
    rw [ho]
    exact complete_deliversLegal (frameResults_legal p id flags (hle.trans hcap) ts wrap s) s

/-- Every operation delivers a legal response, under all parameters. -/
theorem execWith_deliversLegal (p : Params) (i : Instr) (s : State) : DeliversLegal s (execWith p i s) := by
  cases i with
  | hdec handle =>
    refine complete_deliversLegal ?_ s
    exact { Results.legal_default with }
  | henc wide devtype chan =>
    simp only [execWith, execHenc]
    split_ifs
    · refine complete_deliversLegal ?_ s
      exact { Results.legal_default with }
    · exact raise_deliversLegal .hencRange s
  | hfmt handle isfd =>
    have htext := textWithin_handleText handle isfd
    refine complete_deliversLegal ?_ s
    exact
      { Results.legal_default with
        handleTxt := htext.1
        chars := (Results.chars_iff _).2 ⟨htext.2, by simp⟩ }
  | mcls flags => exact complete_deliversLegal (Results.legal_default.withCategory p.masks flags) s
  | dlcl dlc =>
    have hlength : (lengthFromDlc dlc).toNat ≤ 64 := by
      revert dlc
      decide
    refine complete_deliversLegal ?_ s
    exact { Results.legal_default with length := hlength }
  | tscmb micros millis overflow =>
    refine complete_deliversLegal ?_ s
    exact { Results.legal_default with }
  | tsfmt ts => exact complete_deliversLegal (Results.legal_default.withTime p.fmtRound ts) s
  | frn id flags length ts bufn => exact checkAndRender_deliversLegal p _ id flags length ts bufn _ s
  | frc id flags len micros millis overflow bufn => exact checkAndRender_deliversLegal p _ id flags len _ bufn _ s
  | frf id flags dlc ts bufn => exact checkAndRender_deliversLegal p _ id flags _ ts bufn _ s

/-- Performing a request word, whether it decodes or not, delivers a legal response. -/
theorem performBy_deliversLegal (p : Params) (w : ReqWord) (s : State) : DeliversLegal s (performBy (execWith p) w s) := by
  cases hd : decode w with
  | error e =>
    rw [performBy_of_error hd]
    exact raise_deliversLegal .opReserved s
  | ok i =>
    rw [performBy_of_ok hd]
    exact execWith_deliversLegal p i s

/-- A step with no request at the port (log entry 2). -/
theorem stepWith_of_idle (p : Params) {s : State} (h : s.queue = []) : stepWith p s = .next s := by
  simp only [stepWith, transactWith, transactBy, h]

/-- Delivering a legal response and letting the request go keeps the invariant. -/
theorem State.Inv.performed {s : State} (h : s.Inv) {r : Request} {rest : List Request} (hq : s.queue = r :: rest)
    {x : Response} (hx : x.Legal) : (performed s rest x).Inv := by
  have hresponses : ∀ y ∈ s.responses ++ [x], y.Legal :=
    List.forall_mem_append.2 ⟨h.responses, List.forall_mem_singleton.2 hx⟩
  exact ⟨hresponses, fun q hmem => h.buffers q (hq ▸ List.mem_cons_of_mem r hmem)⟩

end Sys2Proof.Machine

namespace Sys2Proof

/-- Settles O58: an idle step changes nothing, and a transaction delivers one legal response. -/
theorem everyInstanceKeepsTheInvariant : Obligations.EveryInstanceKeepsTheInvariant := by
  intro p s t hinv hstep
  cases hq : s.queue with
  | nil =>
    rw [stepWith_of_idle p hq] at hstep
    exact Host.Outcome.next.inj hstep ▸ hinv
  | cons r rest =>
    obtain ⟨x, hx, hlegal⟩ := performBy_deliversLegal p r.req s
    rw [stepWith_of_performBy hq hx] at hstep
    exact Host.Outcome.next.inj hstep ▸ hinv.performed hq hlegal

/-- Settles O48: it is O58 at the parameters of Config. -/
theorem stepKeepsTheInvariant : Obligations.StepKeepsTheInvariant :=
  fun s t hinv hstep => everyInstanceKeepsTheInvariant Config.params s t hinv (step_eq_stepWith s ▸ hstep)

end Sys2Proof
end

section
/-! SUPPORT. The channel-handle codec in numbers (41_handle_codec.md R100 to R104): what decoding and composing give, and
that composing a fitting pair is decoding read backwards (R103). -/

open Sys2Proof Sys2Proof.Machine Sys2Proof.Spec

namespace Sys2Proof.Machine

/-- HDEC delivers the decoded pair. -/
theorem exec_hdec (handle : BitVec 16) (s : State) :
    exec (.hdec handle) s =
      .next (answered s (.ok { devtype := (decodeHandle handle).1, chan := (decodeHandle handle).2 })) := rfl

/-- HFMT delivers the decoded pair and the text of the handle. -/
theorem exec_hfmt (handle : BitVec 16) (isfd : Bool) (s : State) :
    exec (.hfmt handle isfd) s =
      .next (answered s (.ok {
        devtype := (decodeHandle handle).1
        chan := (decodeHandle handle).2
        handleTxt := handleText handle isfd })) := rfl

/-- HDEC answers exactly the pair that the handle decodes to. -/
theorem exec_hdec_eq_iff {handle devtype : BitVec 16} {chan : BitVec 8} {s : State} :
    exec (.hdec handle) s = .next (answered s (.ok { devtype := devtype, chan := chan })) ↔
      decodeHandle handle = (devtype, chan) := by
  simp [exec_hdec, answered_eq, deliver_inj, Prod.ext_iff]

/-- The check of HENC is the one that the statements write in numbers (R102). -/
theorem handleFits_iff {wide : Bool} {devtype : BitVec 16} {chan : BitVec 8} :
    handleFits wide devtype chan = true ↔ Fits wide devtype chan := by
  cases wide <;> simp [handleFits, Fits, Nat.one_le_iff_ne_zero]

/-- HENC answers a handle exactly when the pair fits and composes to that handle. -/
theorem exec_henc_eq_iff {wide : Bool} {devtype handle : BitVec 16} {chan : BitVec 8} {s : State} :
    exec (.henc wide devtype chan) s = .next (answered s (.ok { handle := handle })) ↔
      Fits wide devtype chan ∧ composeHandle wide devtype chan = handle := by
  rw [exec, execHenc, ← handleFits_iff, answered_eq]
  split_ifs with hfits
  · simp [hfits, complete_eq, deliver_inj]
  · simp [hfits, raise_eq, deliver_inj]

/-- A channel index of `k` bits under a device type shifted past it is a sum. -/
theorem toNat_shiftLeft_or_chan {devtype : BitVec 16} {chan : BitVec 8} {k : Nat} (hchan : chan.toNat < 2 ^ k)
    (hdev : devtype.toNat * 2 ^ k < 2 ^ 16) :
    (devtype <<< k ||| chan.setWidth 16).toNat = 2 ^ k * devtype.toNat + chan.toNat := by
  have hlt : chan.toNat < 2 ^ 16 := chan.isLt.trans (by decide)
  rw [BitVec.toNat_or, BitVec.toNat_shiftLeft, BitVec.toNat_setWidth, Nat.mod_eq_of_lt hlt, Nat.shiftLeft_eq,
    Nat.mod_eq_of_lt hdev, Nat.mul_comm, Nat.two_pow_add_eq_or_of_lt hchan]

/-- A fitting pair composes to 256 or 16 times the device type plus the channel index (R102). -/
theorem composeHandle_toNat {wide : Bool} {devtype : BitVec 16} {chan : BitVec 8} (h : Fits wide devtype chan) :
    (composeHandle wide devtype chan).toNat = (if wide then 256 else 16) * devtype.toNat + chan.toNat := by
  obtain ⟨rfl, hdev, hchan⟩ | ⟨rfl, -, hdev⟩ := h
  · exact toNat_shiftLeft_or_chan (k := 4) (by omega) (by omega)
  · exact toNat_shiftLeft_or_chan (k := 8) chan.isLt (by omega)

/-- The low `k` bits of a handle are its remainder by `2 ^ k`, and they fit a channel index. -/
theorem toNat_and_lowBits (handle : BitVec 16) {k : Nat} (hk : k ≤ 8) :
    ((handle &&& BitVec.ofNat 16 (2 ^ k - 1)).setWidth 8).toNat = handle.toNat % 2 ^ k := by
  have hpow : 2 ^ k ≤ 2 ^ 8 := Nat.pow_le_pow_right (by decide) hk
  have hmask : 2 ^ k - 1 < 2 ^ 16 := by omega
  have hrem : handle.toNat % 2 ^ k < 2 ^ 8 := (Nat.mod_lt _ (Nat.two_pow_pos k)).trans_le hpow
  rw [BitVec.toNat_setWidth, BitVec.toNat_and, BitVec.toNat_ofNat, Nat.mod_eq_of_lt hmask,
    Nat.and_two_pow_sub_one_eq_mod, Nat.mod_eq_of_lt hrem]

/-- The decoded pair is quotient and remainder, by 256 when the handle has the magnitude of the wide layout and by 16 when
it has not (R100). -/
theorem decodeHandle_toNat {wide : Bool} {handle : BitVec 16} (h : wide = true ↔ 0x100 ≤ handle.toNat) :
    (decodeHandle handle).1.toNat = handle.toNat / (if wide then 256 else 16) ∧
      (decodeHandle handle).2.toNat = handle.toNat % (if wide then 256 else 16) := by
  cases wide with
  | false =>
    have hnarrow : handle.toNat < Config.wideMin := Nat.lt_of_not_le (mt h.2 Bool.false_ne_true)
    rw [decodeHandle, if_pos hnarrow]
    exact ⟨Nat.shiftRight_eq_div_pow _ 4, toNat_and_lowBits handle (k := 4) (by decide)⟩
  | true =>
    have hwide : ¬ handle.toNat < Config.wideMin := Nat.not_lt.2 (h.1 rfl)
    rw [decodeHandle, if_neg hwide]
    exact ⟨Nat.shiftRight_eq_div_pow _ 8, toNat_and_lowBits handle (k := 8) (by decide)⟩

/-- A fitting pair composes to a handle of 0x100 or more exactly in the wide layout (R102). -/
theorem wide_iff_le_composeHandle {wide : Bool} {devtype : BitVec 16} {chan : BitVec 8} (h : Fits wide devtype chan) :
    wide = true ↔ 0x100 ≤ (composeHandle wide devtype chan).toNat := by
  rw [composeHandle_toNat h]
  obtain ⟨rfl, hdev, hchan⟩ | ⟨rfl, hdev, -⟩ := h
  · refine iff_of_false Bool.false_ne_true ?_
    rw [if_neg Bool.false_ne_true]
    omega
  · refine iff_of_true rfl ?_
    rw [if_pos rfl]
    omega

/-- What is decoded fits the layout of the handle's magnitude (R103). -/
theorem fits_decodeHandle {wide : Bool} {handle : BitVec 16} (h : wide = true ↔ 0x100 ≤ handle.toNat) :
    Fits wide (decodeHandle handle).1 (decodeHandle handle).2 := by
  obtain ⟨hdev, hchan⟩ := decodeHandle_toNat h
  have hlt := handle.isLt
  cases wide with
  | false =>
    have hnarrow : ¬ 0x100 ≤ handle.toNat := mt h.2 Bool.false_ne_true
    rw [if_neg Bool.false_ne_true] at hdev hchan
    exact .inl ⟨rfl, by omega, by omega⟩
  | true =>
    have hwide : 0x100 ≤ handle.toNat := h.1 rfl
    rw [if_pos rfl] at hdev
    exact .inr ⟨rfl, by omega, by omega⟩

/-- Decoding then composing in the layout of the magnitude gives the handle back (R103 (b)). -/
theorem composeHandle_decodeHandle {wide : Bool} {handle : BitVec 16} (h : wide = true ↔ 0x100 ≤ handle.toNat) :
    composeHandle wide (decodeHandle handle).1 (decodeHandle handle).2 = handle := by
  obtain ⟨hdev, hchan⟩ := decodeHandle_toNat h
  apply BitVec.eq_of_toNat_eq
  rw [composeHandle_toNat (fits_decodeHandle h), hdev, hchan, Nat.div_add_mod]

/-- Composing a fitting pair then decoding gives the pair back (R103 (a)). -/
theorem decodeHandle_composeHandle {wide : Bool} {devtype : BitVec 16} {chan : BitVec 8} (h : Fits wide devtype chan) :
    decodeHandle (composeHandle wide devtype chan) = (devtype, chan) := by
  obtain ⟨hdev, hchan⟩ := decodeHandle_toNat (wide_iff_le_composeHandle h)
  have hlt : chan.toNat < if wide then 256 else 16 := by
    obtain ⟨rfl, -, hnarrow⟩ | ⟨rfl, -⟩ := h
    · exact Nat.lt_succ_of_le hnarrow
    · exact chan.isLt
  rw [composeHandle_toNat h] at hdev hchan
  rw [Nat.mul_add_div (Nat.zero_lt_of_lt hlt), Nat.div_eq_of_lt hlt, Nat.add_zero] at hdev
  rw [Nat.mul_add_mod, Nat.mod_eq_of_lt hlt] at hchan
  exact Prod.ext (BitVec.eq_of_toNat_eq hdev) (BitVec.eq_of_toNat_eq hchan)

/-- The two layouts compose different handles, whatever fitting pairs they are given (R103 (d)). -/
theorem composeHandle_narrow_ne_wide {devtype devtype' : BitVec 16} {chan chan' : BitVec 8}
    (h : Fits false devtype chan) (h' : Fits true devtype' chan') :
    composeHandle false devtype chan ≠ composeHandle true devtype' chan' := by
  intro heq
  have hwide := (wide_iff_le_composeHandle h').1 rfl
  rw [← heq] at hwide
  exact Bool.false_ne_true ((wide_iff_le_composeHandle h).2 hwide)

end Sys2Proof.Machine

namespace Sys2Proof

/-- Settles O20: each of the two magnitudes fixes the divisor. -/
theorem hdecDecodesByMagnitude : Obligations.HdecDecodesByMagnitude := by
  intro handle s
  refine ⟨_, _, exec_hdec handle s, fun hnarrow => ?_, fun hwide => ?_⟩
  · exact decodeHandle_toNat (wide := false) (iff_of_false Bool.false_ne_true (Nat.not_le.2 hnarrow))
  · exact decodeHandle_toNat (wide := true) (iff_of_true rfl hwide)

/-- Settles O21: a fitting pair is accepted, and its composition is a sum without a carry. -/
theorem hencComposesWhatFits : Obligations.HencComposesWhatFits :=
  fun _ _ _ _ hfits => ⟨_, exec_henc_eq_iff.2 ⟨hfits, rfl⟩, composeHandle_toNat hfits, wide_iff_le_composeHandle hfits⟩

/-- Settles O23: the two laws between composing and decoding, and for a narrow pair with a device type the first of them
in both layouts. -/
theorem handleRoundTrips : Obligations.HandleRoundTrips := by
  refine ⟨fun wide t c h s hcompose => ?_, fun h t c s hdecode => ?_, fun t c s hpos hdev hchan => ?_⟩
  · obtain ⟨hfits, rfl⟩ := exec_henc_eq_iff.1 hcompose
    exact exec_hdec_eq_iff.2 (decodeHandle_composeHandle hfits)
  · obtain ⟨rfl, rfl⟩ := Prod.mk.inj (exec_hdec_eq_iff.1 hdecode)
    have hmagnitude : decide (0x100 ≤ h.toNat) = true ↔ 0x100 ≤ h.toNat := decide_eq_true_iff
    exact exec_henc_eq_iff.2 ⟨fits_decodeHandle hmagnitude, composeHandle_decodeHandle hmagnitude⟩
  · have hnarrow : Fits false t c := .inl ⟨rfl, hdev, hchan⟩
    have hwide : Fits true t c := .inr ⟨rfl, hpos, by omega⟩
    exact ⟨_, _, composeHandle_narrow_ne_wide hnarrow hwide, exec_hdec_eq_iff.2 (decodeHandle_composeHandle hnarrow),
      exec_hdec_eq_iff.2 (decodeHandle_composeHandle hwide)⟩

/-- Settles O24: HFMT delivers the pair of HDEC, and its text is that of R104 written over the pair. -/
theorem hfmtRendersTheHandle : Obligations.HfmtRendersTheHandle :=
  fun handle isfd s => ⟨_, _, exec_hdec handle s, exec_hfmt handle isfd s⟩

end Sys2Proof
end

section
/-! SUPPORT. The classification of a flags word (42_type_flags.md R121 to R124): one equation for each branch, with the
tests in the words of the statements, and the fields that MCLS writes from it. -/

open Sys2Proof Sys2Proof.Machine Sys2Proof.Spec

namespace Sys2Proof.Machine

/-- A flag is set when the word and the mask have a common bit. -/
theorem hasFlag_eq_decide (flags mask : BitVec 8) : hasFlag flags mask = decide (flags &&& mask ≠ 0#8) := by
  rw [hasFlag, Bool.eq_iff_iff, bne_iff_ne, decide_eq_true_eq]

theorem hasFlag_iff {flags mask : BitVec 8} : hasFlag flags mask = true ↔ flags &&& mask ≠ 0#8 := by
  rw [hasFlag_eq_decide, decide_eq_true_eq]

theorem not_hasFlag {flags mask : BitVec 8} (h : flags &&& mask = 0#8) : ¬ hasFlag flags mask = true :=
  mt hasFlag_iff.1 (not_not.2 h)

/-- A word meets a union of two masks when it meets one of them. -/
theorem hasFlag_or (flags a b : BitVec 8) : hasFlag flags (a ||| b) = (hasFlag flags a || hasFlag flags b) := by
  have hand : flags &&& (a ||| b) = (flags &&& a) ||| (flags &&& b) := BitVec.and_or_distrib_left
  rw [Bool.eq_iff_iff, Bool.or_eq_true, hasFlag_iff, hasFlag_iff, hasFlag_iff, hand, ne_eq, BitVec.or_eq_zero_iff,
    not_and_or]

section
variable {m : Masks} {flags : BitVec 8}

/-- Step 1 of R121. -/
theorem classify_of_status (h : flags &&& m.status ≠ 0#8) : classify m flags = { kind := .status } := by
  rw [classify, if_pos (hasFlag_iff.2 h)]

/-- Step 2 of R121. -/
theorem classify_of_errframe (hs : flags &&& m.status = 0#8) (h : flags &&& m.errframe ≠ 0#8) :
    classify m flags = { kind := .error } := by
  rw [classify, if_neg (not_hasFlag hs), if_pos (hasFlag_iff.2 h)]

variable (hs : flags &&& m.status = 0#8) (he : flags &&& m.errframe = 0#8)
include hs he

/-- Step 4 of R121, with the bit of R124. -/
theorem classify_of_rtr (h : flags &&& m.rtr ≠ 0#8) :
    classify m flags =
      { kind := if hasFlag flags m.extended then .extendedRTR else .standardRTR
        ext := hasFlag flags m.extended
        amb := hasFlag flags m.fd || hasFlag flags m.brs || hasFlag flags m.esi } := by
  rw [classify, if_neg (not_hasFlag hs), if_neg (not_hasFlag he), if_pos (hasFlag_iff.2 h), hasFlag_or, hasFlag_or]

/-- Step 5 of R121: the whole word exceeds EXTENDED. -/
theorem classify_of_above (hr : flags &&& m.rtr = 0#8) (h : m.extended < flags) :
    classify m flags =
      { kind := .fdVariant
        ext := hasFlag flags m.extended
        fd := hasFlag flags m.fd
        brs := hasFlag flags m.brs
        esi := hasFlag flags m.esi } := by
  rw [classify, if_neg (not_hasFlag hs), if_neg (not_hasFlag he), if_neg (not_hasFlag hr), if_pos h]

/-- The last branch of R121: the bare base label. -/
theorem classify_of_not_above (hr : flags &&& m.rtr = 0#8) (h : ¬ m.extended < flags) :
    classify m flags =
      { kind := if hasFlag flags m.extended then .extended else .standard
        ext := hasFlag flags m.extended } := by
  rw [classify, if_neg (not_hasFlag hs), if_neg (not_hasFlag he), if_neg (not_hasFlag hr), if_neg h]

end

/-- The fields that the classification writes are those of the five ordered steps (R121). -/
theorem categoryFieldsIn_withCategory (m : Masks) (r : Results) (flags : BitVec 8) :
    CategoryFieldsIn m flags (r.withCategory m flags) := by
  simp only [CategoryFieldsIn, Results.withCategory]
  by_cases hs : flags &&& m.status = 0#8
  · by_cases he : flags &&& m.errframe = 0#8
    · by_cases hr : flags &&& m.rtr = 0#8
      · by_cases hx : m.extended < flags
        · rw [classify_of_above hs he hr hx]
          simp [hs, he, hr, BitVec.lt_def.1 hx, hasFlag_eq_decide]
        · rw [classify_of_not_above hs he hr hx]
          simp [hs, he, hr, mt BitVec.lt_def.2 hx, hasFlag_eq_decide]
      · rw [classify_of_rtr hs he hr]
        simp [hs, he, hr, hasFlag_eq_decide, Bool.or_assoc]
    · rw [classify_of_errframe hs he]
      simp [hs, he]
  · rw [classify_of_status hs]
    simp [hs]

/-- The label that is written is that of the written Category (R123). -/
theorem labelField_withCategory (m : Masks) (r : Results) (flags : BitVec 8) :
    LabelField (r.withCategory m flags) := by
  simp only [LabelField, Results.withCategory]
  refine ⟨fun h => ?_, fun h => ?_, fun h => ?_, fun h => ?_, fun h => ?_, fun h => ?_, fun h => ?fdVariant⟩
  case fdVariant =>
    rw [typeLabel, h]
    rfl
  all_goals rw [typeLabel, h]

/-- MCLS delivers the Category of the word and its label. -/
theorem execWith_mcls (p : Params) (flags : BitVec 8) (s : State) :
    execWith p (.mcls flags) s = .next (answered s (.ok (Results.withCategory p.masks {} flags))) := rfl

end Sys2Proof.Machine

namespace Sys2Proof

/-- Settles O54: what MCLS delivers has the fields of the classification and its label, written into empty results. -/
theorem mclsClassifiesUnderEveryLayout : Obligations.MclsClassifiesUnderEveryLayout :=
  fun p flags s => ⟨_, execWith_mcls p flags s, categoryFieldsIn_withCategory p.masks {} flags,
    labelField_withCategory p.masks {} flags, rfl⟩

/-- Settles O25: it is O54 at the parameters of Config. -/
theorem mclsClassifies : Obligations.MclsClassifies := by
  intro flags s
  rw [exec_eq_execWith]
  exact mclsClassifiesUnderEveryLayout Config.params flags s

end Sys2Proof
end

section
/-! SUPPORT. The mask layouts in which the rules read as written (00_scope.md R8, 93_implementation_defined.md V12), and
what they add to the classification: the precedence of R125 and the bit of R124. -/

open Sys2Proof Sys2Proof.Machine Sys2Proof.Spec

namespace Sys2Proof

namespace Masks

/-- A word has no bit or the one bit in common with a single bit. -/
theorem and_eq_zero_or_eq_of_singleBit {b : BitVec 8} (hb : singleBit b = true) (x : BitVec 8) :
    x &&& b = 0#8 ∨ x &&& b = b := by
  obtain ⟨k, -, hk⟩ := List.any_eq_true.1 hb
  obtain rfl : b = BitVec.twoPow 8 k := eq_of_beq hk
  rw [BitVec.and_twoPow]
  split_ifs
  · exact .inr rfl
  · exact .inl rfl

/-- A word exceeds what a single bit that it has exceeds. -/
theorem lt_of_and_singleBit {a b : BitVec 8} (hb : singleBit b = true) (hlt : a < b) {x : BitVec 8}
    (h : x &&& b ≠ 0#8) : a < x := by
  have hand : x &&& b = b := (and_eq_zero_or_eq_of_singleBit hb x).resolve_left h
  rw [← hand, BitVec.lt_def, BitVec.toNat_and] at hlt
  exact hlt.trans_le Nat.and_le_left

/-- Two single bits that differ have no bit in common. -/
theorem and_eq_zero_of_singleBit_ne {a b : BitVec 8} (ha : singleBit a = true) (hb : singleBit b = true) (h : a ≠ b) :
    a &&& b = 0#8 := by
  by_contra hne
  have hab : a &&& b = b := (and_eq_zero_or_eq_of_singleBit hb a).resolve_left hne
  have hba : b &&& a = a := (and_eq_zero_or_eq_of_singleBit ha b).resolve_left (BitVec.and_comm a b ▸ hne)
  exact h (hba.symm.trans ((BitVec.and_comm b a).trans hab))

/-- What a valid layout gives the classification: EXTENDED is a bit that none of STATUS, ERRFRAME and RTR has, and a
word with FD, BRS or ESI exceeds it. -/
structure SeparatesExtended (m : Masks) : Prop where
  status   : m.extended &&& m.status = 0#8
  errframe : m.extended &&& m.errframe = 0#8
  rtr      : m.extended &&& m.rtr = 0#8
  extended : m.extended ≠ 0#8
  below    : ∀ x : BitVec 8, x &&& m.fd ≠ 0#8 ∨ x &&& m.brs ≠ 0#8 ∨ x &&& m.esi ≠ 0#8 → m.extended < x

/-- A valid layout separates EXTENDED from the other masks (V12). -/
theorem separatesExtended_of_valid {m : Masks} (h : m.valid = true) : m.SeparatesExtended := by
  simp only [valid, Bool.and_eq_true, List.all_eq_true, decide_eq_true_eq] at h
  obtain ⟨⟨⟨⟨⟨hbit, hdistinct⟩, -⟩, hfd⟩, hbrs⟩, hesi⟩ := h
  simp only [toList, List.mem_cons, List.not_mem_nil, or_false, forall_eq_or_imp, forall_eq] at hbit
  obtain ⟨brtr, bext, bfd, bbrs, besi, berr, bstatus⟩ := hbit
  obtain ⟨hstatus, herr, hrtr⟩ : m.extended ≠ m.status ∧ m.extended ≠ m.errframe ∧ m.extended ≠ m.rtr := by
    simp only [toList, List.nodup_cons, List.mem_cons, not_or] at hdistinct
    tauto
  exact
    { status := and_eq_zero_of_singleBit_ne bext bstatus hstatus
      errframe := and_eq_zero_of_singleBit_ne bext berr herr
      rtr := and_eq_zero_of_singleBit_ne bext brtr hrtr
      extended := by
        intro hzero
        rw [hzero] at bext
        exact absurd bext (by decide)
      below := by
        rintro x (hx | hx | hx)
        · exact lt_of_and_singleBit bfd hfd hx
        · exact lt_of_and_singleBit bbrs hbrs hx
        · exact lt_of_and_singleBit besi hesi hx }

end Masks

namespace Machine

/-- The word without flags is Standard (R121). -/
theorem classify_zero (m : Masks) : classify m 0#8 = { kind := .standard } := by
  rw [classify_of_not_above BitVec.zero_and BitVec.zero_and BitVec.zero_and BitVec.not_lt_zero,
    hasFlag, BitVec.zero_and]
  rfl

/-- EXTENDED alone is Extended in a layout that separates it (R121). -/
theorem classify_extended {m : Masks} (h : m.SeparatesExtended) :
    classify m m.extended = { kind := .extended, ext := true } := by
  have hext : hasFlag m.extended m.extended = true := hasFlag_iff.2 (BitVec.and_self ▸ h.extended)
  rw [classify_of_not_above h.status h.errframe h.rtr (BitVec.lt_irrefl _), hext]
  rfl

/-- RTR hides the tokens (R125). -/
theorem classify_rtr_hides_tokens {m : Masks} {flags : BitVec 8} (hs : flags &&& m.status = 0#8)
    (he : flags &&& m.errframe = 0#8) (h : flags &&& m.rtr ≠ 0#8) :
    ((classify m flags).kind = .standardRTR ∨ (classify m flags).kind = .extendedRTR) ∧
      (classify m flags).fd = false ∧ (classify m flags).brs = false ∧ (classify m flags).esi = false := by
  rw [classify_of_rtr hs he h]
  cases hasFlag flags m.extended with
  | false => exact ⟨.inl rfl, rfl, rfl, rfl⟩
  | true => exact ⟨.inr rfl, rfl, rfl, rfl⟩

/-- Only RTR gives an RTR kind, with STATUS and ERRFRAME clear (R121). -/
theorem flags_of_classify_rtr {m : Masks} {flags : BitVec 8}
    (h : (classify m flags).kind = .standardRTR ∨ (classify m flags).kind = .extendedRTR) :
    flags &&& m.status = 0#8 ∧ flags &&& m.errframe = 0#8 ∧ flags &&& m.rtr ≠ 0#8 := by
  have hs : flags &&& m.status = 0#8 := by
    by_contra hs
    simp [classify_of_status hs] at h
  have he : flags &&& m.errframe = 0#8 := by
    by_contra he
    simp [classify_of_errframe hs he] at h
  refine ⟨hs, he, fun hr => ?_⟩
  by_cases hx : m.extended < flags
  · simp [classify_of_above hs he hr hx] at h
  · rw [classify_of_not_above hs he hr hx] at h
    cases hext : hasFlag flags m.extended <;> simp [hext] at h

/-- `amb` marks the RTR kinds that hide a token, under every layout (R124). -/
theorem classify_amb_iff (m : Masks) (flags : BitVec 8) :
    (classify m flags).amb = true ↔
      ((classify m flags).kind = .standardRTR ∨ (classify m flags).kind = .extendedRTR) ∧
        (flags &&& m.fd ≠ 0#8 ∨ flags &&& m.brs ≠ 0#8 ∨ flags &&& m.esi ≠ 0#8) := by
  by_cases hkind : (classify m flags).kind = .standardRTR ∨ (classify m flags).kind = .extendedRTR
  · obtain ⟨hs, he, hr⟩ := flags_of_classify_rtr hkind
    rw [and_iff_right hkind, classify_of_rtr hs he hr]
    simp only [Bool.or_eq_true, hasFlag_iff, or_assoc]
  · exact iff_of_false (mt (classify_consistent m flags).amb hkind) fun h => hkind h.1

/-- With STATUS, ERRFRAME and RTR clear, a word above EXTENDED is an FD variant with exactly the tokens whose bits are
set (R121). -/
theorem classify_above_fields {m : Masks} {flags : BitVec 8} (hs : flags &&& m.status = 0#8)
    (he : flags &&& m.errframe = 0#8) (hr : flags &&& m.rtr = 0#8) (h : m.extended < flags) :
    (classify m flags).kind = .fdVariant ∧
      ((classify m flags).ext = true ↔ flags &&& m.extended ≠ 0#8) ∧
      ((classify m flags).fd = true ↔ flags &&& m.fd ≠ 0#8) ∧
      ((classify m flags).brs = true ↔ flags &&& m.brs ≠ 0#8) ∧
      ((classify m flags).esi = true ↔ flags &&& m.esi ≠ 0#8) := by
  rw [classify_of_above hs he hr h]
  exact ⟨rfl, hasFlag_iff, hasFlag_iff, hasFlag_iff, hasFlag_iff⟩

end Machine

/-- Settles O26: one equation of the classification for each clause; the layout gives that a token exceeds EXTENDED and
that EXTENDED alone is none of the masks before it. -/
theorem precedenceHoldsForEveryMaskLayout : Obligations.PrecedenceHoldsForEveryMaskLayout := by
  intro m flags hvalid
  have hsep := Masks.separatesExtended_of_valid hvalid
  exact ⟨classify_of_status, classify_of_errframe, classify_rtr_hides_tokens,
    fun hs he hr htoken => classify_above_fields hs he hr (hsep.below flags htoken), classify_zero m,
    classify_extended hsep⟩

/-- Settles O27: it holds of every layout, valid or not. -/
theorem ambMarksHiddenFdBits : Obligations.AmbMarksHiddenFdBits :=
  fun m flags _ => classify_amb_iff m flags

end Sys2Proof
end

section
/-! SUPPORT. The DLC table in numbers (43_dlc_length.md R140, R141): the model's table is the one that the statements
write by its branches, and the order of its entries. -/

open Sys2Proof Sys2Proof.Machine Sys2Proof.Spec

namespace Sys2Proof.Machine

/-- The length of a code is the table's entry in the words of the statements, for each of the 16 codes (R140). -/
theorem lengthFromDlc_toNat_eq_dlcLength (dlc : BitVec 4) : (lengthFromDlc dlc).toNat = dlcLength dlc := by
  revert dlc
  decide

/-- A larger code has a larger length (R141). -/
theorem dlcLength_strictMono {d d' : BitVec 4} (h : d.toNat < d'.toNat) : dlcLength d < dlcLength d' := by
  have hd' : d'.toNat < 16 := d'.isLt
  unfold dlcLength
  split_ifs <;> omega

/-- No length exceeds `LEN_MAX` (R141). -/
theorem dlcLength_le (d : BitVec 4) : dlcLength d ≤ 64 := by
  unfold dlcLength
  split_ifs <;> omega

/-- A code up to 8 is its own length (R140). -/
theorem dlcLength_of_le {d : BitVec 4} (h : d.toNat ≤ 8) : dlcLength d = d.toNat := if_pos h

/-- A code above 8 has a length above itself (R141). -/
theorem lt_dlcLength {d : BitVec 4} (h : 8 < d.toNat) : d.toNat < dlcLength d := by
  have hd : d.toNat < 16 := d.isLt
  unfold dlcLength
  split_ifs <;> omega

/-- DLCL delivers the length of its code. -/
theorem exec_dlcl (dlc : BitVec 4) (s : State) :
    exec (.dlcl dlc) s = .next (answered s (.ok { length := lengthFromDlc dlc })) := rfl

end Sys2Proof.Machine

namespace Sys2Proof

/-- Settles O29: DLCL delivers `lengthFromDlc`, and that is the table's entry. -/
theorem dlclGivesTheTableLength : Obligations.DlclGivesTheTableLength :=
  fun dlc s => ⟨_, exec_dlcl dlc s, lengthFromDlc_toNat_eq_dlcLength dlc⟩

/-- Settles O30: the order of the table read in numbers, and on either side of code 8 whether a length is its code. -/
theorem dlcTableIsStrictlyIncreasing : Obligations.DlcTableIsStrictlyIncreasing := by
  refine ⟨fun d d' h => ?_, fun d => ?_⟩
  · rw [BitVec.lt_def, lengthFromDlc_toNat_eq_dlcLength, lengthFromDlc_toNat_eq_dlcLength]
    exact dlcLength_strictMono (BitVec.lt_def.1 h)
  · rw [lengthFromDlc_toNat_eq_dlcLength]
    refine ⟨dlcLength_le d, ?_⟩
    rcases Nat.lt_or_ge 8 d.toNat with habove | hupTo
    · have hlength := lt_dlcLength habove
      exact ⟨hlength.le, iff_of_false hlength.ne' habove.not_ge⟩
    · have hlength := dlcLength_of_le hupTo
      exact ⟨hlength.ge, iff_of_true hlength hupTo⟩

end Sys2Proof
end

section
/-! SUPPORT. Timestamps in numbers (44_timestamp.md R152 to R160): the exact sum that TSCMB reduces and when it wraps,
and how far rounding to tenths of a millisecond moves a count. -/

open Sys2Proof Sys2Proof.Machine Sys2Proof.Spec

namespace Sys2Proof.Machine

/-- The sum that the model forms is the one that the statements write (R152). -/
theorem exactMicros_eq_exactSum (micros millis overflow : BitVec 32) :
    exactMicros micros millis overflow = exactSum micros millis overflow := rfl

/-- The combined timestamp is the exact sum modulo 2^64 (R152). -/
theorem combine_toNat (micros millis overflow : BitVec 32) :
    (combine micros millis overflow).toNat = exactSum micros millis overflow % 2 ^ 64 := by
  rw [combine, BitVec.toNat_ofNat, exactMicros_eq_exactSum]

/-- `wrap` is 1 exactly when the exact sum needs more than 64 bits (R152). -/
theorem wraps_eq_true_iff {exact : Nat} : wraps exact = true ↔ 2 ^ 64 ≤ exact := decide_eq_true_iff

/-- `wrap` is 0 exactly when the exact sum fits 64 bits (R152). -/
theorem wraps_eq_false_iff {exact : Nat} : wraps exact = false ↔ exact < 2 ^ 64 := by
  rw [wraps, decide_eq_false_iff_not, Nat.not_le]

/-- The exact sum of three 32-bit operands has at most 74 bits (R152). -/
theorem exactSum_lt (micros millis overflow : BitVec 32) : exactSum micros millis overflow < 2 ^ 74 := by
  have hmicros := micros.isLt
  have hmillis := millis.isLt
  have hoverflow := overflow.isLt
  unfold exactSum
  omega

/-- TSCMB delivers the combined timestamp and `wrap` (R152). -/
theorem exec_tscmb (micros millis overflow : BitVec 32) (s : State) :
    exec (.tscmb micros millis overflow) s =
      .next (answered s (.ok {
        ts := combine micros millis overflow
        wrap := wraps (exactSum micros millis overflow) })) := by
  rw [← exactMicros_eq_exactSum]
  rfl

/-- TSCMB answers exactly the combined timestamp and its `wrap`. -/
theorem exec_tscmb_eq_iff {micros millis overflow : BitVec 32} {ts : BitVec 64} {wrap : Bool} {s : State} :
    exec (.tscmb micros millis overflow) s = .next (answered s (.ok { ts := ts, wrap := wrap })) ↔
      combine micros millis overflow = ts ∧ wraps (exactSum micros millis overflow) = wrap := by
  simp [exec_tscmb, answered_eq, deliver_inj]

/-- Rounding goes down from at most the middle, or up from at least the middle, under either rule (R156). -/
theorem roundUp_cases (mode : FmtRound) (q r : Nat) :
    (roundUp mode q r = 0 ∧ r ≤ 50) ∨ (roundUp mode q r = 1 ∧ 50 ≤ r) := by
  cases mode <;> simp only [roundUp] <;> split_ifs <;> omega

/-- Above the same tenth, more microseconds round up no less (R156). -/
theorem roundUp_mono (mode : FmtRound) (q : Nat) {r r' : Nat} (h : r ≤ r') : roundUp mode q r ≤ roundUp mode q r' := by
  cases mode <;> simp only [roundUp] <;> split_ifs <;> omega

/-- The rounded tenths lie within 50 microseconds of the count (R160). -/
theorem tenthsOf_nearest (mode : FmtRound) (ts : Nat) :
    100 * tenthsOf mode ts ≤ ts + 50 ∧ ts ≤ 100 * tenthsOf mode ts + 50 := by
  have hround := roundUp_cases mode (ts / 100) (ts % 100)
  unfold tenthsOf
  omega

/-- A larger count has no fewer tenths: it has the same quotient and no smaller rest, or a larger quotient, which alone
makes up for rounding the smaller count up (R160). -/
theorem tenthsOf_mono (mode : FmtRound) {ts ts' : Nat} (h : ts ≤ ts') : tenthsOf mode ts ≤ tenthsOf mode ts' := by
  obtain hquot | hquot := (Nat.div_le_div_right h : ts / 100 ≤ ts' / 100).eq_or_lt
  · have hrest : ts % 100 ≤ ts' % 100 := by omega
    unfold tenthsOf
    rw [hquot]
    exact Nat.add_le_add_left (roundUp_mono mode _ hrest) _
  · calc tenthsOf mode ts ≤ ts / 100 + 1 := tenthsOf_le mode ts
      _ ≤ ts' / 100 := hquot
      _ ≤ tenthsOf mode ts' := Nat.le_add_right ..

/-- The rules differ exactly when the middle is reached above an even number of tenths (R159). -/
theorem roundUp_halfUp_ne_halfEven_iff {q r : Nat} :
    roundUp .halfUp q r ≠ roundUp .halfEven q r ↔ r = 50 ∧ q % 2 = 0 := by
  simp only [roundUp]
  split_ifs <;> omega

/-- The tenths are those that the statements write by the two rules (R156). -/
theorem tenthsOf_eq (mode : FmtRound) (ts : Nat) :
    tenthsOf mode ts = ts / 100 +
      (if mode = .halfUp then if 50 ≤ ts % 100 then 1 else 0
      else if 50 < ts % 100 ∨ (ts % 100 = 50 ∧ ts / 100 % 2 = 1) then 1 else 0) := by
  cases mode <;> rfl

/-- The integer part of the rounded milliseconds fits its 64 bits (R156). -/
theorem Results.withTime_msInt_toNat (mode : FmtRound) (r : Results) (ts : BitVec 64) :
    (r.withTime mode ts).msInt.toNat = tenthsOf mode ts.toNat / 10 := by
  have hle := tenthsOf_le mode ts.toNat
  have hlt := ts.isLt
  exact Nat.mod_eq_of_lt (by omega)

/-- The decimal digit of the rounded milliseconds fits its four bits (R156). -/
theorem Results.withTime_msTenth_toNat (mode : FmtRound) (r : Results) (ts : BitVec 64) :
    (r.withTime mode ts).msTenth.toNat = tenthsOf mode ts.toNat % 10 := Nat.mod_eq_of_lt (by omega)

/-- The two numbers together are the rounded tenths (R160). -/
theorem Results.withTime_tenths (mode : FmtRound) (r : Results) (ts : BitVec 64) :
    10 * (r.withTime mode ts).msInt.toNat + (r.withTime mode ts).msTenth.toNat = tenthsOf mode ts.toNat := by
  rw [withTime_msInt_toNat, withTime_msTenth_toNat, Nat.div_add_mod]

/-- The text is that of the two numbers (R160). -/
theorem Results.withTime_timeTxt (mode : FmtRound) (r : Results) (ts : BitVec 64) :
    (r.withTime mode ts).timeTxt =
      dec (r.withTime mode ts).msInt.toNat ++ ascii ['.'] ++ dec (r.withTime mode ts).msTenth.toNat := by
  rw [withTime_msInt_toNat, withTime_msTenth_toNat]
  rfl

/-- Writing the time fields gives them as R156 says, whatever the other fields are. -/
theorem Results.timeFieldsIn_withTime (mode : FmtRound) (r : Results) (ts : BitVec 64) :
    TimeFieldsIn mode ts (r.withTime mode ts) :=
  ⟨tenthsOf mode ts.toNat, tenthsOf_eq mode ts.toNat, withTime_msInt_toNat mode r ts, withTime_msTenth_toNat mode r ts,
    rfl⟩

/-- TSFMT delivers the time fields, under the rounding rule of the parameters (R156). -/
theorem execWith_tsfmt (p : Params) (ts : BitVec 64) (s : State) :
    execWith p (.tsfmt ts) s = .next (answered s (.ok (Results.withTime p.fmtRound {} ts))) := rfl

/-- TSFMT under the parameters of Config rounds by `FMT_ROUND` (R156, R232). -/
theorem exec_tsfmt (ts : BitVec 64) (s : State) :
    exec (.tsfmt ts) s = .next (answered s (.ok (Results.withTime Config.fmtRound {} ts))) := rfl

end Sys2Proof.Machine

namespace Sys2Proof

/-- Settles O31: TSCMB delivers `combine` and `wraps` of the exact sum, and nothing else. -/
theorem tscmbCombinesExactly : Obligations.TscmbCombinesExactly :=
  fun micros millis overflow s => ⟨_, _, exec_tscmb micros millis overflow s, combine_toNat micros millis overflow,
    wraps_eq_true_iff, exactSum_lt micros millis overflow⟩

/-- Settles O32: at `overflow` = 4294967 the other two operands have 1271310319616 left below 2^64; below it their
largest sum fits, and above it the part of `overflow` alone does not. -/
theorem tscmbWrapBoundary : Obligations.TscmbWrapBoundary := by
  intro micros millis overflow s
  have hmicros := micros.isLt
  have hmillis := millis.isLt
  refine ⟨_, _, exec_tscmb micros millis overflow s, fun hbelow => ?_, fun hat => ?_, fun habove => ?_⟩
  · rw [wraps_eq_false_iff, exactSum]
    omega
  · rw [wraps_eq_false_iff, exactSum, hat]
    omega
  · rw [wraps_eq_true_iff, exactSum]
    omega

/-- Settles O33: without a wrap the timestamp is the exact sum itself, `micros` plus 1000 times a
number whose low 32 bits are `millis`. -/
theorem rawTimestampIsRecoverable : Obligations.RawTimestampIsRecoverable := by
  intro micros millis overflow ts s hmicros hexec
  obtain ⟨rfl, hwrap⟩ := exec_tscmb_eq_iff.1 hexec
  have hmillis := millis.isLt
  rw [combine_toNat, Nat.mod_eq_of_lt (wraps_eq_false_iff.1 hwrap), exactSum]
  omega

/-- Settles O55: TSFMT delivers the time fields of an otherwise empty response. -/
theorem tsfmtRoundsByItsParameter : Obligations.TsfmtRoundsByItsParameter :=
  fun p ts s => ⟨_, execWith_tsfmt p ts s, Results.timeFieldsIn_withTime p.fmtRound {} ts, rfl⟩

/-- Settles O34: `tsfmtRoundsByItsParameter` at the parameters of Config. -/
theorem tsfmtRoundsToOneDecimal : Obligations.TsfmtRoundsToOneDecimal := by
  intro ts s
  rw [exec_eq_execWith]
  exact tsfmtRoundsByItsParameter Config.params ts s

/-- Settles O35: the two numbers are the quotient and the rest by ten of the rounded tenths, which are nearest and
monotone. -/
theorem tsfmtIsNearestAndMonotone : Obligations.TsfmtIsNearestAndMonotone := by
  intro ts ts' s
  refine ⟨_, _, exec_tsfmt ts s, exec_tsfmt ts' s, Results.withTime_timeTxt _ _ ts, ?_⟩
  rw [Results.withTime_tenths, Results.withTime_tenths]
  obtain ⟨hle, hge⟩ := tenthsOf_nearest Config.fmtRound ts.toNat
  exact ⟨rfl, hle, hge, tenthsOf_mono Config.fmtRound⟩

/-- Settles O36: a count leaves 50 above an even number of tenths exactly when it leaves 50 above a multiple of 200. -/
theorem roundingModesDifferOnlyAtEvenTies : Obligations.RoundingModesDifferOnlyAtEvenTies := by
  intro ts
  have htie : ts % 200 = 50 ↔ ts % 100 = 50 ∧ ts / 100 % 2 = 0 := by omega
  refine ⟨?_, fun h => ?_⟩
  · rw [htie, tenthsOf, tenthsOf, Ne, Nat.add_left_cancel_iff]
    exact roundUp_halfUp_ne_halfEven_iff
  · obtain ⟨hrest, heven⟩ := htie.1 h
    simp [tenthsOf, roundUp, hrest, heven]

end Sys2Proof
end

section
/-! SUPPORT. The frame operations in the words of the statements (45_frame.md R172 to R182): the three are one checked
rendering, when it answers results, and which results those are. -/

open Sys2Proof Sys2Proof.Machine Sys2Proof.Spec

namespace Sys2Proof.Machine

section
variable (p : Params) (id : BitVec 32) (flags length : BitVec 8) (dlc : BitVec 4) (ts : BitVec 64)
  (micros millis overflow : BitVec 32) (bufn : BitVec 7) (wrap : Bool) (s : State)

/-- FRN checks against `LEN_MAX` and leaves `wrap` 0 (R171, R172). -/
theorem execWith_frn :
    execWith p (.frn id flags length ts bufn) s = checkAndRender p Config.lenMax id flags length ts bufn false s := rfl

/-- FRC checks against `CLASSIC_LEN_MAX` and takes the timestamp and `wrap` of TSCMB (R180). -/
theorem execWith_frc :
    execWith p (.frc id flags length micros millis overflow bufn) s =
      checkAndRender p Config.classicLenMax id flags length (combine micros millis overflow) bufn
        (wraps (exactSum micros millis overflow)) s := rfl

/-- FRF is FRN with the length of the table (R182). -/
theorem execWith_frf :
    execWith p (.frf id flags dlc ts bufn) s = execWith p (.frn id flags (lengthFromDlc dlc) ts bufn) s := rfl

variable {p id flags length ts bufn wrap s}

/-- A frame operation answers results exactly when its checks pass, and then those of the rendered frame. -/
theorem checkAndRender_eq_ok_iff {maxLength : Nat} {r : Results} :
    checkAndRender p maxLength id flags length ts bufn wrap s = .next (answered s (.ok r)) ↔
      (bufn.toNat ≤ 64 ∧ length.toNat ≤ maxLength ∧ length.toNat ≤ bufn.toNat) ∧
        frameResults p id flags length ts wrap s = r := by
  rw [answered_eq, ← checkFrame_eq_none]
  obtain ⟨c, hc, ho⟩ | ⟨hc, ho⟩ := checkAndRender_cases p maxLength id flags length ts bufn wrap s
  · simp [hc, ho, deliver_inj]
  · simp [hc, ho, deliver_inj]

variable (p id flags length ts wrap s)

/-- The data label of the rendered frame in the words of the statements (R176). -/
theorem frameResults_dataTxt :
    (frameResults p id flags length ts wrap s).dataTxt = dataText p.masks flags length.toNat s := by
  simp only [dataText, ← hasFlag_iff]
  calc (frameResults p id flags length ts wrap s).dataTxt
    _ = if hasFlag flags p.masks.rtr = true then remoteRequest
        else bytesText ((List.range length.toNat).map s.bufByte) := rfl
    _ = _ := by
      rw [bytesText_eq, List.map_map]
      rfl

/-- The identifier label of the rendered frame in the words of the statements (R174). -/
theorem frameResults_idTxt :
    (frameResults p id flags length ts wrap s).idTxt =
      (if flags &&& p.masks.extended ≠ 0#8 then hex 8 id.toNat else hex 3 id.toNat) ++ ascii ['h'] := by
  simp only [← hasFlag_iff]
  rfl

/-- The results of the rendered frame have the fields of FRN as R172 to R176 give them: Category and label are those that
MCLS writes into an empty response, and the time fields those that TSFMT writes (R173, R175). -/
theorem rendersFrameIn_frameResults :
    RendersFrameIn p id flags length.toNat ts wrap s (frameResults p id flags length ts wrap s) where
  category := categoryFieldsIn_withCategory p.masks {} flags
  typeTxt := labelField_withCategory p.masks {} flags
  time := Results.timeFieldsIn_withTime p.fmtRound {} ts
  length := rfl
  ts := rfl
  wrap := rfl
  idTxt := frameResults_idTxt p id flags length ts wrap s
  lenTxt := rfl
  dataTxt := frameResults_dataTxt p id flags length ts wrap s
  unwritten := ⟨rfl, rfl, rfl, rfl⟩

variable {length}

/-- Under all parameters FRN renders every frame that passes its checks (R172). -/
theorem execWith_frn_renders (hmax : length.toNat ≤ 64) (hcap : bufn.toNat ≤ 64) (hle : length.toNat ≤ bufn.toNat) :
    ∃ r, execWith p (.frn id flags length ts bufn) s = .next (answered s (.ok r)) ∧
      RendersFrameIn p id flags length.toNat ts false s r :=
  ⟨_, checkAndRender_eq_ok_iff.2 ⟨⟨hcap, hmax, hle⟩, rfl⟩, rendersFrameIn_frameResults p id flags length ts false s⟩

/-- Under all parameters FRC renders every classic record that passes its checks, with the timestamp and `wrap` of the
exact sum (R180). -/
theorem execWith_frc_renders (hmax : length.toNat ≤ 8) (hcap : bufn.toNat ≤ 64) (hle : length.toNat ≤ bufn.toNat) :
    ∃ (r : Results) (t : BitVec 64) (w : Bool),
      execWith p (.frc id flags length micros millis overflow bufn) s = .next (answered s (.ok r)) ∧
      t.toNat = exactSum micros millis overflow % 2 ^ 64 ∧ (w = true ↔ 2 ^ 64 ≤ exactSum micros millis overflow) ∧
      RendersFrameIn p id flags length.toNat t w s r :=
  ⟨_, _, _, checkAndRender_eq_ok_iff.2 ⟨⟨hcap, hmax, hle⟩, rfl⟩, combine_toNat micros millis overflow,
    wraps_eq_true_iff, rendersFrameIn_frameResults p id flags length _ _ s⟩

variable {dlc}

/-- Under all parameters FRF renders every FD record whose table length fits the buffer (R182). -/
theorem execWith_frf_renders (hcap : bufn.toNat ≤ 64) (hle : dlcLength dlc ≤ bufn.toNat) :
    ∃ r, execWith p (.frf id flags dlc ts bufn) s = .next (answered s (.ok r)) ∧
      RendersFrameIn p id flags (dlcLength dlc) ts false s r := by
  have hmax := dlcLength_le dlc
  rw [← lengthFromDlc_toNat_eq_dlcLength] at hle hmax ⊢
  exact execWith_frn_renders p id flags ts s hmax hcap hle

end

/-- Two states get the same response from a frame operation when RTR is set or their buffers agree below the length
(R186). -/
theorem checkAndRender_congr_of_length (p : Params) (maxLength : Nat) (id : BitVec 32) (flags length : BitVec 8)
    (ts : BitVec 64) (bufn : BitVec 7) (wrap : Bool) {s s' : State}
    (h : flags &&& p.masks.rtr ≠ 0#8 ∨ ∀ a, a < length.toNat → s.bufByte a = s'.bufByte a) :
    ∃ x, checkAndRender p maxLength id flags length ts bufn wrap s = .next (answered s x) ∧
      checkAndRender p maxLength id flags length ts bufn wrap s' = .next (answered s' x) :=
  checkAndRender_congr p maxLength id flags length ts bufn wrap <|
    h.imp hasFlag_iff.2 fun hagree a ha _ _ => hagree a ha

end Sys2Proof.Machine

namespace Sys2Proof

/-- Settles O56: each operation's checks are the premises, and the rendered frame has the fields of the rules. -/
theorem framesRenderUnderEveryParameters : Obligations.FramesRenderUnderEveryParameters :=
  fun p id flags _ _ ts micros millis overflow _ s hcap =>
    ⟨fun hmax hle => execWith_frn_renders p id flags ts s hmax hcap hle,
      fun hmax hle => execWith_frc_renders p id flags micros millis overflow s hmax hcap hle,
      fun hle => execWith_frf_renders p id flags ts s hcap hle⟩

/-- Settles O38: FRN under the parameters of Config. -/
theorem frnRendersTheFrame : Obligations.FrnRendersTheFrame := by
  intro id flags length ts bufn s hmax hcap hle
  rw [exec_eq_execWith]
  exact execWith_frn_renders Config.params id flags ts s hmax hcap hle

/-- Settles O39: FRC under the parameters of Config. -/
theorem frcRendersTheClassicRecord : Obligations.FrcRendersTheClassicRecord := by
  intro id flags len micros millis overflow bufn s hmax hcap hle
  rw [exec_eq_execWith]
  exact execWith_frc_renders Config.params id flags micros millis overflow s hmax hcap hle

/-- Settles O40: FRF under the parameters of Config. -/
theorem frfRendersTheFdRecord : Obligations.FrfRendersTheFdRecord := by
  intro id flags dlc ts bufn s hcap hle
  rw [exec_eq_execWith]
  exact execWith_frf_renders Config.params id flags ts s hcap hle

/-- Settles O42: the three operations are one checked rendering, whose response two such states share. -/
theorem noByteBeyondLengthIsShown : Obligations.NoByteBeyondLengthIsShown := by
  intro id flags length dlc ts micros millis overflow bufn s s'
  rw [exec_eq_execWith, ← lengthFromDlc_toNat_eq_dlcLength]
  exact ⟨fun h => ⟨checkAndRender_congr_of_length Config.params _ id flags length ts bufn _ h,
      checkAndRender_congr_of_length Config.params _ id flags length _ bufn _ h⟩,
    fun h => checkAndRender_congr_of_length Config.params _ id flags (lengthFromDlc dlc) ts bufn _ h⟩

/-- Settles O43: the length that DLCL delivers is the one FRF takes. -/
theorem frfIsFrnWithTheTableLength : Obligations.FrfIsFrnWithTheTableLength := by
  intro id flags length dlc ts bufn s hdlcl
  have hlength : lengthFromDlc dlc = length := by simpa [exec_dlcl, answered_eq, deliver_inj] using hdlcl
  rw [exec_eq_execWith, execWith_frf, hlength]

/-- Settles O44: the checks that FRN passed and the classic bound are the checks of FRC, and the rendered frame has
`wrap` in one field alone. -/
theorem frcIsFrnWithTheCombinedTimestamp : Obligations.FrcIsFrnWithTheCombinedTimestamp := by
  intro id flags len micros millis overflow bufn ts wrap r s hmax htscmb hfrn
  obtain ⟨rfl, rfl⟩ := exec_tscmb_eq_iff.1 htscmb
  rw [exec_eq_execWith, execWith_frn] at hfrn
  obtain ⟨⟨hcap, -, hle⟩, rfl⟩ := checkAndRender_eq_ok_iff.1 hfrn
  rw [exec_eq_execWith, execWith_frc]
  exact checkAndRender_eq_ok_iff.2 ⟨⟨hcap, hmax, hle⟩, rfl⟩

/-- Settles O45: the three responses write these fields by the same two functions, of the flags and of the timestamp. -/
theorem frameAgreesWithMclsAndTsfmt : Obligations.FrameAgreesWithMclsAndTsfmt := by
  intro id flags length ts bufn r rm rt s hfrn hmcls htsfmt
  rw [exec_eq_execWith] at hfrn hmcls htsfmt
  rw [execWith_frn] at hfrn
  obtain ⟨-, rfl⟩ := checkAndRender_eq_ok_iff.1 hfrn
  have hrm : Results.withCategory Config.masks {} flags = rm := by
    simpa [execWith_mcls, answered_eq, deliver_inj] using hmcls
  have hrt : Results.withTime Config.fmtRound {} ts = rt := by
    simpa [execWith_tsfmt, answered_eq, deliver_inj] using htsfmt
  subst hrm hrt
  exact ⟨⟨rfl, rfl, rfl, rfl, rfl, rfl, rfl⟩, rfl, rfl, rfl⟩

end Sys2Proof
end

section
/-! SUPPORT. Exceptions (60_exceptions.md R200 to R211): the priority list of the frame operations read one cause at a
time, the conditions of HENC in numbers, and what a step leaves for the next request. -/

open Sys2Proof Sys2Proof.Machine Sys2Proof.Spec

namespace Sys2Proof

section
variable {maxLength length bufn : Nat}

/-- The priority list of a frame operation as nested tests (R208). -/
theorem frameCause_eq_ite :
    frameCause maxLength length bufn =
      if 64 < bufn then some .bufnRange else if maxLength < length then some .lenRange
      else if bufn < length then some .lenGtBuf else none := by
  simp only [frameCause, firstCause, decide_eq_true_eq]

/-- BUFN_RANGE is the first cause of a frame operation (R204, R208). -/
theorem frameCause_eq_bufnRange_iff : frameCause maxLength length bufn = some .bufnRange ↔ 64 < bufn := by
  rw [frameCause_eq_ite]
  split_ifs with hbufn hmax hlen <;> simp <;> omega

/-- LEN_RANGE comes second (R203, R208). -/
theorem frameCause_eq_lenRange_iff :
    frameCause maxLength length bufn = some .lenRange ↔ bufn ≤ 64 ∧ maxLength < length := by
  rw [frameCause_eq_ite]
  split_ifs with hbufn hmax hlen <;> simp <;> omega

/-- LEN_GT_BUF comes third (R202, R208). -/
theorem frameCause_eq_lenGtBuf_iff :
    frameCause maxLength length bufn = some .lenGtBuf ↔ bufn ≤ 64 ∧ length ≤ maxLength ∧ bufn < length := by
  rw [frameCause_eq_ite]
  split_ifs with hbufn hmax hlen <;> simp <;> omega

end

/-- The table's entry for a code is the length that the statements write by its branches (R140). -/
theorem dlcTable_getD (dlc : BitVec 4) : dlcTable.getD dlc.toNat 0 = dlcLength dlc := by
  rw [← lengthFromDlc_toNat, lengthFromDlc_toNat_eq_dlcLength]

/-- Operands do not fit a layout exactly under the conditions of R206. -/
theorem not_fits_iff {wide : Bool} {devtype : BitVec 16} {chan : BitVec 8} :
    ¬ Fits wide devtype chan ↔
      (wide = false ∧ (15 < devtype.toNat ∨ 15 < chan.toNat)) ∨
        (wide = true ∧ (devtype.toNat = 0 ∨ 255 < devtype.toNat)) := by
  cases wide with
  | false => simp only [Fits, reduceCtorEq, true_and, false_and, or_false]; omega
  | true => simp only [Fits, reduceCtorEq, true_and, false_and, false_or]; omega

/-- HENC has the cause HENC_RANGE exactly when its operands do not fit (R206). -/
theorem cause?_henc_eq_hencRange_iff {wide : Bool} {devtype : BitVec 16} {chan : BitVec 8} :
    (Instr.henc wide devtype chan).cause? = some .hencRange ↔ ¬ Fits wide devtype chan := by
  rw [cause?_henc, ← handleFits_iff]
  split_ifs with hfits <;> simp [hfits]

/-- A step with a request at the port delivers one response and lets that request go. -/
theorem exists_step_eq_performed {s : State} {r : Request} {rest : List Request} (hq : s.queue = r :: rest) :
    ∃ x, step s = .next (performed s rest x) := by
  obtain ⟨x, hx, -⟩ := equalTransactionsHaveEqualResponses s s r r rest rest hq hq rfl fun _ _ _ _ _ _ _ => rfl
  exact ⟨x, hx⟩

/-- Settles O46: every operation answers the cause of its operands. -/
theorem exceptionsAreExactlyTheListedOnes : Obligations.ExceptionsAreExactlyTheListedOnes := by
  intro i s c
  rw [exec_eq_execWith, answered_eq]
  exact (execWith_answersCause Config.params i s).eq_exception_iff c

/-- Settles O41: each clause is one entry of the priority list, and no length of the table is above 64. -/
theorem frameChecksAreReportedInOrder : Obligations.FrameChecksAreReportedInOrder := by
  intro id flags length dlc ts micros millis overflow bufn s
  simp only [ne_eq, exceptionsAreExactlyTheListedOnes _ s, Instr.cause?, dlcTable_getD, frameCause_eq_bufnRange_iff,
    frameCause_eq_lenRange_iff, frameCause_eq_lenGtBuf_iff]
  have htable : dlcLength dlc ≤ 64 := dlcLength_le dlc
  exact ⟨fun hbufn => ⟨hbufn, hbufn, hbufn⟩, fun hcap hlong => ⟨hcap, hlong⟩, fun hcap hlong => ⟨hcap, hlong⟩,
    fun hcap hmax hgt => ⟨hcap, hmax, hgt⟩, fun hcap hmax hgt => ⟨hcap, hmax, hgt⟩,
    fun hcap hgt => ⟨hcap, htable, hgt⟩, fun ⟨_, hlong⟩ => htable.not_gt hlong⟩

/-- Settles O22: HENC raises exactly when its operands do not fit the layout. -/
theorem hencRaisesExactlyWhenItDoesNotFit : Obligations.HencRaisesExactlyWhenItDoesNotFit := by
  intro wide devtype chan s
  rw [exceptionsAreExactlyTheListedOnes, cause?_henc_eq_hencRange_iff, not_fits_iff]

/-- Settles O6: the reserved-code clause of O52 at the parameters of Config. -/
theorem reservedOpcodeRaises : Obligations.ReservedOpcodeRaises := by
  intro s r rest hq hreserved
  obtain ⟨-, hraises⟩ := everyInstanceRunsTheDecodedOperation Config.params s r rest hq
  exact ⟨(step_eq_stepWith s).trans (hraises hreserved), rfl⟩

/-- Settles O12: the request behind has a response of its own in every state with it at the port, and the step of the
one before, refused or not, leads to such a state. -/
theorem refusedRequestLeavesNoMark : Obligations.RefusedRequestLeavesNoMark := by
  intro s t r r' rest c hq hsup hstep _
  obtain ⟨x, hx⟩ := Request.exists_answeredBy hsup
  obtain ⟨y, hy⟩ := exists_step_eq_performed hq
  obtain rfl : performed s (r' :: rest) y = t := Host.Outcome.next.inj (hy.symm.trans hstep)
  exact ⟨x, hx _ rest rfl, hx { s with queue := r' :: rest } rest rfl⟩

/-- Settles O47: raising is delivering the exception, and the records are the rows of the code tables. -/
theorem raisingDeliversStatusAndCauseOnly : Obligations.RaisingDeliversStatusAndCauseOnly :=
  ⟨raise_eq, rfl, rfl, rfl, rfl, rfl, fun _ => rfl, rfl, rfl⟩

end Sys2Proof
end

section
/-! SUPPORT. Reset and the parameters (70_reset_and_hazards.md R230 to R238): a step with no request at the port, and
the state that holds neither a request nor a response. -/

open Sys2Proof Sys2Proof.Machine Sys2Proof.Spec

namespace Sys2Proof

namespace Machine

/-- The machine's step with no request at the port (log entry 2). -/
theorem step_of_idle {s : State} (h : s.queue = []) : step s = .next s :=
  (step_eq_stepWith s).trans (stepWith_of_idle Config.params h)

/-- With nothing delivered and nothing queued there is nothing that could break the invariant. -/
theorem State.inv_of_empty {s : State} (hresponses : s.responses = []) (hqueue : s.queue = []) : s.Inv where
  responses := by simp [hresponses]
  buffers := by simp [hqueue]

end Machine

/-- Settles O9: a request gets its response whatever the bytes of its buffer are (R238). -/
theorem everyRequestGetsOneResponse : Obligations.EveryRequestGetsOneResponse :=
  fun _ _ _ hq => exists_step_eq_performed hq

/-- Settles O16: the state after reset is written down with both lists empty, so its step is an idle one. -/
theorem resetIsIdle : Obligations.ResetIsIdle :=
  have hqueue : State.reset.queue = [] := rfl
  ⟨hqueue, rfl, step_of_idle hqueue⟩

/-- Settles O49: the state after reset holds no response and no request. -/
theorem resetMeetsTheInvariant : Obligations.ResetMeetsTheInvariant :=
  State.inv_of_empty rfl rfl

/-- Settles O51: the machine performs operations, and so steps, under the parameters of Config (R232). -/
theorem stepIsTheStepOfOneInstance : Obligations.StepIsTheStepOfOneInstance :=
  ⟨step_eq_stepWith, fun i s => congrFun (congrFun exec_eq_execWith i) s, rfl⟩

end Sys2Proof
end

section
/-! SUPPORT. A step with no request at the port and a reset during the only transaction (70_reset_and_hazards.md R230);
the outcome of every flags word under the masks of 00_scope.md R7 (42_type_flags.md R122, R126). -/

open Sys2Proof Sys2Proof.Machine Sys2Proof.Spec

namespace Sys2Proof

namespace Machine

/-- Presenting the only request again undoes the reset that cut it (log entry 9). -/
theorem State.present_resetInProgress {s : State} {r : Request} (hq : s.queue = [r]) :
    s.resetInProgress.present r = s := by
  have hqueue : s.queue.tail ++ [r] = s.queue := by rw [hq, List.tail_cons, List.nil_append]
  rw [State.present, State.resetInProgress, hqueue]

end Machine

/-- The kinds of the flags words in the order of the words, the rows of R122: below 0x40 the blocks of four words with
equal upper bits, of which the first has no bit above EXTENDED, then the Error words and the Status words. -/
def outcomeKinds : List Kind :=
  [Kind.standard, .standardRTR, .extended, .extendedRTR] ++
    (List.replicate 15 [Kind.fdVariant, .standardRTR, .fdVariant, .extendedRTR]).flatten ++
    List.replicate 64 Kind.error ++ List.replicate 128 Kind.status

/-- The flags words have the kinds of the rows of R122. -/
theorem map_kindOf_flagWords : flagWords.map kindOf = outcomeKinds := by decide +kernel

/-- A kind has as many flags words as the rows of R122 show it: once or not at all in the first block, 15 times as often
as in a further block, and in the two runs. -/
theorem countP_kindOf_flagWords (k : Kind) :
    flagWords.countP (kindOf · = k) =
      [.standard, .standardRTR, .extended, .extendedRTR].count k +
        15 * [.fdVariant, .standardRTR, .fdVariant, .extendedRTR].count k +
        (List.replicate 64 Kind.error).count k + (List.replicate 128 Kind.status).count k := by
  have hrows : flagWords.countP (kindOf · = k) = outcomeKinds.count k := by
    rw [← map_kindOf_flagWords, List.count, List.countP_map]
    exact List.countP_congr fun f _ => by simp
  rw [hrows, outcomeKinds, List.count_append, List.count_append, List.count_append, List.count_flatten,
    List.map_replicate, List.sum_replicate, smul_eq_mul]

/-- Only 0x00 and 0x02 reach the last branch of R121 (R122). -/
theorem flagWords_filter_plain :
    flagWords.filter (fun f => kindOf f = .standard ∨ kindOf f = .extended) = [0x00, 0x02] := by
  decide +kernel

/-- The FD variants without a token are those whose only bit above EXTENDED is the reserved one (R126). -/
theorem flagWords_filter_emptyBracket :
    flagWords.filter
        (fun f => classify Config.masks f = { kind := .fdVariant, ext := hasFlag f Config.masks.extended }) =
      [0x20, 0x22] := by
  decide +kernel

/-- Of the 32 RTR words only the four without a token leave `amb` at 0 (R124). -/
theorem flagWords_countP_amb : flagWords.countP (fun f => (classify Config.masks f).amb) = 28 := by decide +kernel

/-- Settles O8: the idle step is the first branch of the transaction. -/
theorem idleStepChangesNothing : Obligations.IdleStepChangesNothing :=
  fun _ => step_of_idle

/-- Settles O17: the reset empties the port without a response, and presenting the request again restores the state. -/
theorem resetInProgressGivesNoResponse : Obligations.ResetInProgressGivesNoResponse := by
  intro s r hq
  have hidle : s.resetInProgress.queue = [] := by rw [s.resetInProgress_queue, hq, List.tail_cons]
  exact ⟨s.resetInProgress_responses, step_of_idle hidle, by rw [State.present_resetInProgress hq], fun _ => rfl⟩

/-- Settles O28: the kinds are counted in the rows of R122, where most of them stand as repetitions. -/
theorem outcomeTableOfFlags : Obligations.OutcomeTableOfFlags := by
  unfold Obligations.OutcomeTableOfFlags
  simp only [countP_kindOf_flagWords, List.count_replicate]
  exact ⟨rfl, rfl, rfl, rfl, rfl, rfl, rfl, flagWords_countP_amb, flagWords_filter_plain,
    flagWords_filter_emptyBracket, by decide⟩

end Sys2Proof
end
